-- ==== Sys2Proof/Syntax.lean ====
section
/-! DEFINITION. The commands of the opcode map (30_encoding.md R92), one constructor per row of
spec/opcode_table.json. A command carries no operand of its own: every operand comes from the
argument registers, the message buffer, the state or the time port when it executes (R91). -/

namespace Sys2Proof

/-- The six commands (R92). An undecodable word is none of them (R93). -/
inductive Instr where
  /-- `new()`, rule R160. -/
  | new
  /-- `custom(instance_id, hash_key, counter_key, epoch)`, rule R161. -/
  | custom
  /-- `set_instance_id(id)`, rule R162. -/
  | setInstanceId
  /-- `update_time()`, rule R163. -/
  | updateTime
  /-- `next_id()`, rule R164. -/
  | nextId
  /-- `next_id_with_hash(bytes)`, rule R165. -/
  | nextIdWithHash
  deriving DecidableEq, Repr

end Sys2Proof
end

