-- ==== Sys2Proof/Word.lean ====
section
/-! DEFINITION. The machine's words (00_scope.md R9, 10_state.md, 20_memory.md R60).
Bit 0 is the least significant bit of every value, as `BitVec` numbers them (R9). -/

namespace Sys2Proof

/-- A byte of a message or of the hash key. -/
abbrev Byte := BitVec 8

/-- What one bus transaction moves (R60). -/
abbrev Word := BitVec 32

/-- An identifier, the window counter, a time in seconds (R28, R29, R212). -/
abbrev DWord := BitVec 64

/-- A byte offset in the 4 KiB register space (R60, R61). -/
abbrev Offset := BitVec 12

/-- A slot number of the collision table (R27, R120). -/
abbrev Slot := BitVec 14

/-- A collision-table entry (R27). -/
abbrev Counter := BitVec 9

/-- Permuted quantized timestamp bits (R26). -/
abbrev TimeBits := BitVec 31

/-- The hash key as the byte list k[0..15] (R24, R67). -/
abbrev Key := Vector Byte 16

end Sys2Proof
end

