-- ==== Sys2Proof/Decode.lean ====
section
/-! DEFINITION. Command words: the one 32-bit format (30_encoding.md R90), the total decoder (R95), the
opcode map (R92) and the encoder written from it. A command is one whole word written to CMD, so there
are no lengths and no byte stream to decode (R94). -/

namespace Sys2Proof

/-- Why a word is no command (R93). Both are the illegal encodings of rule R166. -/
inductive DecodeError where
  /-- RSVD is not 0. -/
  | reservedBitsSet
  /-- RSVD is 0 and OPC is 0x0 or one of 0x7 .. 0xF. -/
  | unassignedOpcode
  deriving DecidableEq, Repr

/-- OPC, bits 3:0 (R90). -/
def commandOpc (v : Word) : BitVec 4 := v.extractLsb' 0 4

/-- RSVD, bits 31:4 (R90). -/
def commandRsvd (v : Word) : BitVec 28 := v.extractLsb' 4 28

/-- `Command(v)` of rule R95, up to the choice of the operation. -/
def decode (v : Word) : Except DecodeError Instr :=
  if commandRsvd v ≠ 0 then .error .reservedBitsSet
  else
    match (commandOpc v).toNat with
    | 0x1 => .ok .new
    | 0x2 => .ok .custom
    | 0x3 => .ok .setInstanceId
    | 0x4 => .ok .updateTime
    | 0x5 => .ok .nextId
    | 0x6 => .ok .nextIdWithHash
    | _ => .error .unassignedOpcode

/-- The command word of each row of the opcode map (R92). -/
def encode : Instr → Word
  | .new => 0x00000001
  | .custom => 0x00000002
  | .setInstanceId => 0x00000003
  | .updateTime => 0x00000004
  | .nextId => 0x00000005
  | .nextIdWithHash => 0x00000006

/-- The command that a word of spec/opcode_table.json decodes to: the low `nbits` bits of `w`, every bit
above them 0. A command is exactly 32 bits (R90), so a longer word is none. -/
def decodeTableWord (nbits w : Nat) : Option Instr :=
  if 32 < nbits then none
  else
    match decode (BitVec.ofNat 32 (w % 2 ^ nbits)) with
    | .ok i => some i
    | .error _ => none

end Sys2Proof
end

