-- ==== Sys2Proof/Config.lean ====
section
/-! DEFINITION. The parameters of the block (00_scope.md R7), their check (42_permutation.md R134),
and this hardware's values. What the spec leaves OPEN is an opaque constant: nothing in Lean can see
what it is. -/

namespace Sys2Proof

/-- The named parameters of rule R7. The values fixed by rule R8 are no parameters. -/
structure Params where
  /-- KH64, total and a function of the message and the key alone (R121). -/
  kh64 : List Byte → Key → DWord
  /-- PERM31, the index table of the timestamp permutation (R130). -/
  perm31 : List Nat
  /-- PERM8, the index table of the counter permutation (R130). -/
  perm8 : List Nat
  /-- DEFAULT_HASH_KEY. -/
  defaultHashKey : Key
  /-- PROBE_LIMIT, at least 1. -/
  probeLimit : Nat
  /-- PACK_INSTANCE (R156). -/
  packInstance : Bool
  /-- MSG_MAX, the bytes of the message buffer: a multiple of 4, at least 4, at most 3840. -/
  msgMax : Nat
  /-- DEFAULT_COUNTER_KEY. -/
  defaultCounterKey : Byte
  /-- DEFAULT_EPOCH, signed seconds since 1970-01-01T00:00:00Z. -/
  defaultEpoch : DWord
  /-- DEFAULT_INSTANCE_ID. -/
  defaultInstanceId : BitVec 14

/-- Why a set of parameters is refused (R7, R134). -/
inductive ParamError where
  /-- PERM31 is no bijection of 0..30 (R134). -/
  | perm31NotBijective
  /-- PERM8 is no bijection of 0..7 (R134). -/
  | perm8NotBijective
  /-- PROBE_LIMIT is 0 (R7). -/
  | probeLimitZero
  /-- MSG_MAX is no multiple of 4 in 4..3840 (R7). -/
  | msgMaxOutOfRange
  deriving DecidableEq, Repr

/-- `T` is a list of `n` indices below `n`, each once (R130, R134). -/
def isBijection (n : Nat) (T : List Nat) : Bool :=
  T.length == n && T.all (fun i => decide (i < n)) && decide T.Nodup

/-- The check of rule R134 and of the ranges in rule R7. -/
def Params.error? (P : Params) : Option ParamError :=
  if isBijection 31 P.perm31 = false then some .perm31NotBijective
  else if isBijection 8 P.perm8 = false then some .perm8NotBijective
  else if P.probeLimit = 0 then some .probeLimitZero
  else if P.msgMax % 4 ≠ 0 ∨ P.msgMax < 4 ∨ 3840 < P.msgMax then some .msgMaxOutOfRange
  else none

/-- Parameters that passed the check: the only ones a machine is built from. -/
structure CheckedParams extends Params where
  checked : toParams.error? = none

/-- A model takes the parameters as an argument and refuses those that fail the check (R7, R134). -/
def Params.instantiate (P : Params) : Except ParamError CheckedParams :=
  match h : P.error? with
  | none => .ok ⟨P, h⟩
  | some e => .error e

namespace Config

/-- KH64 of this hardware: OPEN, opaque, total and deterministic and nothing else (R121, D14; #6). -/
opaque kh64 : List Byte → Key → DWord

/-- PERM31 of this hardware: OPEN. Only that it is a bijection of the 31 positions is known
(R130, R135, D15; #7). -/
opaque perm31Map : Equiv.Perm (Fin 31)

/-- PERM8 of this hardware: OPEN. Only that it is a bijection of the 8 positions is known
(R130, R135, D15; #7). -/
opaque perm8Map : Equiv.Perm (Fin 8)

/-- DEFAULT_HASH_KEY of this hardware: OPEN (D16; #8). -/
opaque defaultHashKey : Key

/-- The free value of the time port: what the `n`-th sample reads when no time line has given a value.
No law relates one sample to another (R212, D36; #4). -/
opaque timeDraw : Nat → DWord

/-- The index list of a bijection: entry `i` is the position output bit `i` takes its bit from (R131). -/
def tableOf {n : Nat} (f : Equiv.Perm (Fin n)) : List Nat :=
  List.ofFn (fun i => (f i).val)

/-- The list of a bijection passes the check of rule R134. -/
theorem isBijection_tableOf {n : Nat} (f : Equiv.Perm (Fin n)) : isBijection n (tableOf f) = true := by
  have hnodup : (tableOf f).Nodup :=
    List.nodup_ofFn.mpr (fun _ _ h => f.injective (Fin.val_injective h))
  have hlt : ∀ i ∈ tableOf f, i < n := by
    intro i hi
    obtain ⟨j, rfl⟩ := List.mem_ofFn.mp hi
    exact (f j).isLt
  simp only [isBijection, Bool.and_eq_true, beq_iff_eq, decide_eq_true_eq, List.all_eq_true]
  exact ⟨⟨by simp [tableOf], hlt⟩, hnodup⟩

/-- The values rule R7 gives under "this hardware", the OPEN ones opaque. -/
def params : Params where
  kh64 := kh64
  perm31 := tableOf perm31Map
  perm8 := tableOf perm8Map
  defaultHashKey := defaultHashKey
  probeLimit := 10
  packInstance := false
  msgMax := 256
  defaultCounterKey := 42
  defaultEpoch := 1719792000
  defaultInstanceId := 0

/-- This hardware (R7). -/
def hardware : CheckedParams where
  toParams := params
  checked := by
    simp [Params.error?, params, isBijection_tableOf]

end Config

end Sys2Proof
end

