-- ==== Sys2Proof/Machine/Port.lean ====
section
/-! DEFINITION. What the outside world can do to the block: the bus transactions of rule R60, the
reset input of rule R230, and the time lines of rule R96. -/

/-- `off` is a multiple of 4 (R60). That it is below 0x1000 is its type. -/
def Sys2Proof.Offset.aligned (off : Sys2Proof.Offset) : Bool := off.toNat % 4 == 0

namespace Sys2Proof.Machine

/-- One action of the host, in the order the block meets them (R75). -/
inductive HostAction where
  /-- `BusRead(off)` (R60, R63). -/
  | read (off : Offset)
  /-- `BusWrite(off, v)` (R60, R64). -/
  | write (off : Offset) (v : Word)
  /-- A `time` line: the value the time port shows to the next time-reading command (R96; #3). -/
  | time (now : DWord)
  /-- The reset input is asserted (R230; #5). -/
  | reset
  deriving DecidableEq, Repr

end Sys2Proof.Machine
end

