-- ==== Sys2Proof/Machine/State.lean ====
section
/-! DEFINITION. The state of the block (10_state.md), the host's side of the port, the reasons a step
can stop, and the state after reset (10_state.md R36, 70_reset_and_hazards.md R230). -/

namespace Sys2Proof.Machine

/-- The message buffer `msg` (R31) as (index, byte) pairs in canonical form: indices strictly rising,
no byte 0. An unlisted byte reads 0, the reset value the spec gives every byte (R36; #9). -/
abbrev Memory := List Host.Cell

/-- The collision table (R27) as (slot, counter) pairs in the same canonical form: an unlisted entry
is 0, the reset value the spec gives every entry (R36; #9). -/
abbrev CollisionTable := List (Nat × Counter)

/-- Everything the spec gives the block: the list of rule R36. -/
structure Block where
  /-- STATUS.ERR (R22). -/
  err : BitVec 4
  /-- ts_valid, read as STATUS.TS_VALID (R25). -/
  tsValid : Bool
  /-- ts_bits (R26). -/
  tsBits : TimeBits
  /-- table (R27). -/
  table : CollisionTable
  /-- wcount (R28). -/
  wcount : DWord
  /-- id_reg (R29). -/
  idReg : DWord
  /-- cfg_instance_id (R24). -/
  cfgInstanceId : BitVec 14
  /-- cfg_hash_key (R24). -/
  cfgHashKey : Key
  /-- cfg_counter_key (R24). -/
  cfgCounterKey : Byte
  /-- cfg_epoch, signed seconds (R24). -/
  cfgEpoch : DWord
  /-- ARG_INSTANCE (R30). -/
  argInstance : Word
  /-- ARG_CKEY (R30). -/
  argCkey : Word
  /-- ARG_EPOCH_LO (R30). -/
  argEpochLo : Word
  /-- ARG_EPOCH_HI (R30). -/
  argEpochHi : Word
  /-- ARG_KEY0 (R30). -/
  argKey0 : Word
  /-- ARG_KEY1 (R30). -/
  argKey1 : Word
  /-- ARG_KEY2 (R30). -/
  argKey2 : Word
  /-- ARG_KEY3 (R30). -/
  argKey3 : Word
  /-- MSG_LEN (R30). -/
  msgLen : Word
  /-- msg (R31). -/
  msg : Memory
  deriving DecidableEq, Repr

/-- The block and the outside of its port. The clock is no state of the block (R35). -/
structure State where
  /-- The block. -/
  block : Block
  /-- The host's coming actions, the next one first (R75; the model's own field, #1). -/
  pending : List HostAction
  /-- What the host's reads have returned, the last one first (the model's own field, #2). -/
  responses : List Word
  /-- What a time line has put on the time port, if it has not been sampled (R96; the model's own
  field, #3). -/
  nextTime : Option DWord
  /-- How many samples of the time port have been taken: the counter of the free value
  `Config.timeDraw` (the model's own field, #4). -/
  timeDraws : Nat
  deriving DecidableEq, Repr

/-- Why the machine stops. Both faults are those 93_implementation_defined.md section 2 asks of a
model for values that no run produces; neither is reached from a state that meets the invariant. -/
inductive Fault where
  /-- A probe of NEXT_ID or NEXT_ID_WITH_HASH read an entry of the collision table in 257..511.
  Raised by `issue`. Safe: the model stops where the spec gives no effect (#11). -/
  | counterOutOfRange (slot : Slot)
  /-- A read of STATUS found ERR in 8..15. Raised by `busRead`. Safe: the model stops where the spec
  gives no effect (#12). -/
  | reservedErrorCode (code : BitVec 4)
  deriving DecidableEq, Repr

/-- Why the machine gives an action no meaning. -/
inductive Refusal where
  /-- An instruction without a meaning, raised by `exec`'s arm. Safe. No arm raises it. -/
  | notModelled (mnemonic : String)
  /-- A bus access whose offset is no multiple of 4, which the port cannot express and a model refuses
  (R70, 93 section 2). Raised by `transact`. Safe (#10). -/
  | unalignedAccess (off : Offset)
  deriving DecidableEq, Repr

/-- The block after reset, for the parameters `P` (R36, R230). -/
def Block.resetWith (P : Params) : Block where
  err := 0
  tsValid := false
  tsBits := 0
  table := []
  wcount := 0
  idReg := 0
  cfgInstanceId := P.defaultInstanceId
  cfgHashKey := P.defaultHashKey
  cfgCounterKey := P.defaultCounterKey
  cfgEpoch := P.defaultEpoch
  argInstance := 0
  argCkey := 0
  argEpochLo := 0
  argEpochHi := 0
  argKey0 := 0
  argKey1 := 0
  argKey2 := 0
  argKey3 := 0
  msgLen := 0
  msg := []

/-- The machine after reset, for the parameters `P`, with nothing presented at its port (R231; #1). -/
def State.resetWith (P : Params) : State where
  block := Block.resetWith P
  pending := []
  responses := []
  nextTime := none
  timeDraws := 0

/-- This hardware after reset. -/
def State.reset : State := State.resetWith Config.hardware.toParams

end Sys2Proof.Machine
end

