-- ==== Sys2Proof/Machine/Sparse.lean ====
section
/-! DEFINITION. Reading and writing the two indexed stores of the block, the collision table and the
message buffer, in their canonical form. Reading and writing obey their laws on every list; the form is
what makes equal stores equal data. -/

namespace Sys2Proof.Machine

/-- The value at an index; an unlisted index holds 0. -/
def sparseGet {w : Nat} : List (Nat × BitVec w) → Nat → BitVec w
  | [], _ => 0#w
  | (b, v) :: rest, a => if b = a then v else sparseGet rest a

/-- The list without any entry at an index. -/
def sparseErase {w : Nat} (m : List (Nat × BitVec w)) (a : Nat) : List (Nat × BitVec w) :=
  m.filter (fun e => e.1 != a)

/-- The list with an entry put before the first entry of a higher index. -/
def sparseInsert {w : Nat} (a : Nat) (v : BitVec w) : List (Nat × BitVec w) → List (Nat × BitVec w)
  | [] => [(a, v)]
  | e :: rest => if a < e.1 then (a, v) :: e :: rest else e :: sparseInsert a v rest

/-- Write a value at an index; writing 0 removes the entry. -/
def sparseSet {w : Nat} (m : List (Nat × BitVec w)) (a : Nat) (v : BitVec w) : List (Nat × BitVec w) :=
  if v = 0#w then sparseErase m a else sparseInsert a v (sparseErase m a)

/-- The canonical form: indices below `bound`, strictly rising, no entry 0. -/
def sparseWf {w : Nat} (bound : Nat) : List (Nat × BitVec w) → Bool
  | [] => true
  | (a, v) :: rest =>
    decide (a < bound) && v != 0#w && rest.all (fun e => decide (a < e.1)) && sparseWf bound rest

/-- The message buffer of `msgMax` bytes is in canonical form. -/
def Memory.wf (msgMax : Nat) (m : Memory) : Bool := sparseWf msgMax m

/-- The collision table of 16384 slots is in canonical form (R8, R27). -/
def CollisionTable.wf (t : CollisionTable) : Bool := sparseWf 16384 t

/-- `table[s]` (R11). -/
def tableGet (t : CollisionTable) (s : Slot) : Counter := sparseGet t s.toNat

/-- `table[s] <- c` (R11). -/
def tableSet (t : CollisionTable) (s : Slot) (c : Counter) : CollisionTable := sparseSet t s.toNat c

/-- `msg[i]` (R31). -/
def msgByte (b : Block) (i : Nat) : Byte := sparseGet b.msg i

end Sys2Proof.Machine
end

