-- ==== Sys2Proof/Machine/Operands.lean ====
section
/-! DEFINITION. How each operand of a command is read (30_encoding.md R91, 10_state.md R30) and the byte
orders of 20_memory.md R65-R68. -/

namespace Sys2Proof.Machine

/-- Byte lane `j` of a word, little-endian: bits 8j+7:8j (R66, R67). -/
def byteLane (v : Word) (j : Nat) : Byte := v.extractLsb' (8 * j) 8

/-- `{b3, b2, b1, b0}`: the word whose lane 0 is `b0` (R63, R66). -/
def wordOfLanes (b0 b1 b2 b3 : Byte) : Word := b3 ++ b2 ++ b1 ++ b0

/-- The low word of a 64-bit quantity, at the lower offset (R65). -/
def lowWord (v : DWord) : Word := v.extractLsb' 0 32

/-- The high word of a 64-bit quantity, at the offset 4 higher (R65). -/
def highWord (v : DWord) : Word := v.extractLsb' 32 32

/-- `BE8(v)`: the 8 bytes of `v`, most significant first (R10, R68). -/
def be8 (v : DWord) : List Byte :=
  [v.extractLsb' 56 8, v.extractLsb' 48 8, v.extractLsb' 40 8, v.extractLsb' 32 8,
   v.extractLsb' 24 8, v.extractLsb' 16 8, v.extractLsb' 8 8, v.extractLsb' 0 8]

/-- ARG_INSTANCE is above 16383, all 32 bits compared (R30, R161, R162, D27). -/
def instanceTooHigh (b : Block) : Bool := decide (16383 < b.argInstance.toNat)

/-- `ARG_INSTANCE[13:0]` (R161, R162). -/
def instanceOperand (b : Block) : BitVec 14 := b.argInstance.extractLsb' 0 14

/-- `ARG_CKEY[7:0]`; bits 31:8 are ignored (R30). -/
def counterKeyOperand (b : Block) : Byte := b.argCkey.extractLsb' 0 8

/-- `{ARG_EPOCH_HI, ARG_EPOCH_LO}`, signed 64-bit seconds (R30). -/
def epochOperand (b : Block) : DWord := b.argEpochHi ++ b.argEpochLo

/-- The key bytes, `k[4w+j] = ARG_KEYw[8j+7:8j]` (R67). -/
def keyOperand (b : Block) : Key :=
  #v[byteLane b.argKey0 0, byteLane b.argKey0 1, byteLane b.argKey0 2, byteLane b.argKey0 3,
     byteLane b.argKey1 0, byteLane b.argKey1 1, byteLane b.argKey1 2, byteLane b.argKey1 3,
     byteLane b.argKey2 0, byteLane b.argKey2 1, byteLane b.argKey2 2, byteLane b.argKey2 3,
     byteLane b.argKey3 0, byteLane b.argKey3 1, byteLane b.argKey3 2, byteLane b.argKey3 3]

/-- `msg[0 .. MSG_LEN)`, byte 0 first (R122, R165). -/
def messageOperand (b : Block) : List Byte := (List.range b.msgLen.toNat).map (msgByte b)

end Sys2Proof.Machine
end

