-- ==== Sys2Proof/Machine/Flags.lean ====
section
/-! DEFINITION. STATUS (10_state.md R22) and the error codes (60_exceptions.md R200). The block has no
other flags or condition codes (R22). -/

namespace Sys2Proof.Machine

/-- What a command reports in STATUS.ERR (R200). Codes 8..15 are never produced. -/
inductive ErrCode where
  | ok
  | epochInFuture
  | timestampOverflow
  | counterOverflow
  | instanceIdTooHigh
  | notReady
  | illegalCommand
  | messageTooLong
  deriving DecidableEq, Repr

/-- The number of a code (R200). -/
def errBits : ErrCode → BitVec 4
  | .ok => 0
  | .epochInFuture => 1
  | .timestampOverflow => 2
  | .counterOverflow => 3
  | .instanceIdTooHigh => 4
  | .notReady => 5
  | .illegalCommand => 6
  | .messageTooLong => 7

/-- The word STATUS reads as: ERR in bits 3:0, TS_VALID in bit 4, bits 31:5 zero (R22). -/
def statusWord (b : Block) : Word := (0 : BitVec 27) ++ BitVec.ofBool b.tsValid ++ b.err

/-- A command writes STATUS.ERR; TS_VALID is a copy of ts_valid and needs no write (R22, R207). -/
def setErr (e : ErrCode) (b : Block) : Block := { b with err := errBits e }

end Sys2Proof.Machine
end

