-- ==== Sys2Proof/Machine/Units.lean ====
section
/-! DEFINITION. The internal units: the bit packer (40_bit_packer.md), the keyed hash
(41_keyed_hash.md), the two permutation engines (42_permutation.md) and the time quantizer
(43_time_quantizer.md). None holds state (R35, R124, R145). -/

namespace Sys2Proof.Machine

/-- The bit packer: hash at bit 49, timestamp at bit 18, instance at bit 8, sequence at bit 0, each input
cut to its field (R110, R111). The operand widths are the source's. -/
def pack (hash : BitVec 16) (timestamp : BitVec 32) (inst : BitVec 16) (sequence : BitVec 8) : DWord :=
  ((hash.setWidth 14).setWidth 64 <<< 49) ||| ((timestamp.setWidth 31).setWidth 64 <<< 18)
    ||| ((inst.setWidth 10).setWidth 64 <<< 8) ||| sequence.setWidth 64

/-- `hash(id)`, bits 62:49 (R113). -/
def idHash (id : DWord) : BitVec 14 := id.extractLsb' 49 14

/-- `timestamp(id)`, bits 48:18 (R113). -/
def idTimestamp (id : DWord) : BitVec 31 := id.extractLsb' 18 31

/-- `instance(id)`, bits 17:8 (R113). -/
def idInstance (id : DWord) : BitVec 10 := id.extractLsb' 8 10

/-- `sequence(id)`, bits 7:0 (R113). -/
def idSequence (id : DWord) : BitVec 8 := id.extractLsb' 0 8

/-- The keyed hash: the low 14 bits of the digest (R120). -/
def slotHash (P : Params) (m : List Byte) (k : Key) : Slot := (P.kh64 m k).extractLsb' 0 14

/-- `Σ ((v >> T[i]) & 1) << i`, the table read from its entry 0 on (R131). -/
def permuteSum {n : Nat} (v : BitVec n) : List Nat → Nat
  | [] => 0
  | t :: rest => (v.getLsbD t).toNat + 2 * permuteSum v rest

/-- Output bit `i` is input bit `T[i]` (R131). -/
def permute {n : Nat} (v : BitVec n) (T : List Nat) : BitVec n := BitVec.ofNat n (permuteSum v T)

/-- `P31` (R132). -/
def p31 (P : Params) (t : BitVec 31) : TimeBits := permute t P.perm31

/-- `P8` (R133). -/
def p8 (P : Params) (c : BitVec 8) : BitVec 8 := permute c P.perm8

/-- A table written most-significant-first, converted: `T[i] = n-1-T'[n-1-i]` (R131). -/
def tableFromMsbFirst (T' : List Nat) : List Nat := T'.reverse.map (fun t => T'.length - 1 - t)

/-- The time quantizer: exact elapsed seconds, refused below 0 and above 0x3FFFFFFF8, in buckets of 8
(R140, R141). -/
def quantize (epoch now : DWord) : Except ErrCode (BitVec 31) :=
  let elapsed : Int := now.toInt - epoch.toInt
  if elapsed < 0 then .error .epochInFuture
  else if 0x3FFFFFFF8 < elapsed then .error .timestampOverflow
  else .ok (BitVec.ofNat 31 (elapsed.toNat >>> 3))

end Sys2Proof.Machine
end

