-- ==== Sys2Proof/Machine/Ops.lean ====
section
/-! DEFINITION. The operations several commands share (44_engine_commands.md R150-R157): ending a
command, sampling the time port, starting a window, issuing an identifier.

The block takes no exception and returns from none (60_exceptions.md R203, R204). A command that fails
reports its code in STATUS.ERR, and `commit` below is the one operation that does so. -/

namespace Sys2Proof.Machine

/-- How a command ends: `succeed` with the block it commits and ERR <- OK, or `fail E`, which discards
every other write (R11, R150, R201). -/
def commit (s : State) (r : Except ErrCode Block) : State :=
  match r with
  | .ok b => { s with block := setErr .ok b }
  | .error e => { s with block := setErr e s.block }

/-- What the time port shows: the value of a time line, else a free value (R212, R96; #3, #4). -/
def timeSample (s : State) : DWord :=
  match s.nextTime with
  | some now => now
  | none => Config.timeDraw s.timeDraws

/-- One sample has been taken: a time line is used up and the next free value is another (R212). -/
def afterSample (s : State) : State := { s with nextTime := none, timeDraws := s.timeDraws + 1 }

/-- `TimeBits(ep)` for the sample `now` (R151). -/
def timeBits (P : Params) (ep now : DWord) : Except ErrCode TimeBits :=
  match quantize ep now with
  | .ok q => .ok (p31 P q)
  | .error e => .error e

/-- `StartWindow(t)` (R152). -/
def startWindow (t : TimeBits) (b : Block) : Block :=
  { b with table := [], wcount := 0, tsBits := t, tsValid := true }

/-- Write the four configuration registers (R24, R160, R161). -/
def configure (instanceId : BitVec 14) (key : Key) (counterKey : Byte) (epoch : DWord) (b : Block) :
    Block :=
  { b with cfgInstanceId := instanceId, cfgHashKey := key, cfgCounterKey := counterKey, cfgEpoch := epoch }

/-- What the probe loop of rule R153 ends in. -/
inductive ProbeResult where
  /-- The first slot whose counter is not 256, and that counter. -/
  | found (slot : Slot) (c : Counter)
  /-- Every probed slot holds 256. -/
  | exhausted
  /-- The first slot whose counter is not 256 holds a value no run produces (93 section 2; #11). -/
  | corrupt (slot : Slot)
  deriving DecidableEq, Repr

/-- Probe at most `n` slots from `s` on, each next slot one higher modulo 16384 (R153, R154). -/
def probe (t : CollisionTable) : Nat → Slot → ProbeResult
  | 0, _ => .exhausted
  | n + 1, s =>
    if tableGet t s = 256 then probe t n (s + 1)
    else if 256 < (tableGet t s).toNat then .corrupt s
    else .found s (tableGet t s)

/-- The sequence field of an issue at the pre-increment counter `c`: `P8(c[7:0] XOR cfg_counter_key)`
(R155). -/
def sequenceField (P : Params) (b : Block) (c : Counter) : BitVec 8 :=
  p8 P (c.extractLsb' 0 8 ^^^ b.cfgCounterKey)

/-- The instance operand of the packer: 0 unless PACK_INSTANCE (R156). -/
def instanceField (P : Params) (b : Block) : BitVec 16 :=
  if P.packInstance then b.cfgInstanceId.setWidth 16 else 0

/-- The block after an issue in slot `s` at the pre-increment counter `c` (R153). -/
def recordIssue (P : Params) (s : Slot) (c : Counter) (b : Block) : Block :=
  { b with
    table := tableSet b.table s (c + 1)
    wcount := b.wcount + 1
    idReg := pack (s.setWidth 16) (b.tsBits.setWidth 32) (instanceField P b) (sequenceField P b c) }

/-- `Issue(m)` (R153, R157), as the outcome of its command. -/
def issue (P : Params) (m : List Byte) (s : State) : Host.Outcome State Fault Refusal :=
  match probe s.block.table P.probeLimit (slotHash P m s.block.cfgHashKey) with
  | .found slot c => .next (commit s (.ok (recordIssue P slot c s.block)))
  | .exhausted => .next (commit s (.error .counterOverflow))
  | .corrupt slot => .fault (.counterOutOfRange slot)

/-- The reset input: every piece of the block's state takes its reset value; what stands outside the
block stays (R230; #5). -/
def resetBlock (P : Params) (s : State) : State := { s with block := Block.resetWith P }

end Sys2Proof.Machine
end

