-- ==== Sys2Proof/Machine/Issue.lean ====
section
/-! DEFINITION. The commands that issue an identifier, NEXT_ID (R164) and NEXT_ID_WITH_HASH (R165), and
what an illegal command word does (R166). -/

namespace Sys2Proof.Machine

/-- NEXT_ID (R164): the hash input is the window counter before its increment. -/
def execNextIdWith (P : Params) (s : State) : Host.Outcome State Fault Refusal :=
  if s.block.tsValid = false then .next (commit s (.error .notReady))
  else issue P (be8 s.block.wcount) s

/-- NEXT_ID_WITH_HASH (R165), its errors in the order of rule R206. -/
def execNextIdWithHashWith (P : Params) (s : State) : Host.Outcome State Fault Refusal :=
  if s.block.tsValid = false then .next (commit s (.error .notReady))
  else if P.msgMax < s.block.msgLen.toNat then .next (commit s (.error .messageTooLong))
  else issue P (messageOperand s.block) s

/-- ILLEGAL (R166): what a write of an undecodable word to CMD does. It is no row of the opcode table. -/
def execIllegal (s : State) : Host.Outcome State Fault Refusal :=
  .next (commit s (.error .illegalCommand))

/-- NEXT_ID on this hardware. -/
def execNextId (s : State) : Host.Outcome State Fault Refusal := execNextIdWith Config.hardware.toParams s

/-- NEXT_ID_WITH_HASH on this hardware. -/
def execNextIdWithHash (s : State) : Host.Outcome State Fault Refusal :=
  execNextIdWithHashWith Config.hardware.toParams s

end Sys2Proof.Machine
end

