-- ==== Sys2Proof/WellFormed.lean ====
section
/-! DEFINITION. What is checked of an instruction, of a host action and of a host program.
The check of the parameters is `Params.error?` in Config. -/

namespace Sys2Proof

/-- A command has no operand field (R91), so every command is well formed. -/
def Instr.wf : Instr → Bool
  | .new => true
  | .custom => true
  | .setInstanceId => true
  | .updateTime => true
  | .nextId => true
  | .nextIdWithHash => true

/-- A transaction the port can express (R60, R70). -/
def Machine.HostAction.wf : Machine.HostAction → Bool
  | .read off => Offset.aligned off
  | .write off _ => Offset.aligned off
  | .time _ => true
  | .reset => true

/-- A host program all of whose transactions the port can express. -/
def Machine.programWf (prog : List Machine.HostAction) : Bool := prog.all Machine.HostAction.wf

end Sys2Proof
end

