-- ==== Sys2Proof/Machine/Bus.lean ====
section
/-! DEFINITION. The host port: the register map (20_memory.md R62), what a read returns (R63), what a
write does (R64), and one action of the host. The parameters, and what runs a command, are arguments,
so that the same bus serves every instantiation (00_scope.md R7). -/

namespace Sys2Proof.Machine

/-- The named registers of the map (R62). -/
inductive Reg where
  | cmd
  | status
  | idLo
  | idHi
  | tsBits
  | wcountLo
  | wcountHi
  | argInstance
  | argCkey
  | argEpochLo
  | argEpochHi
  | argKey0
  | argKey1
  | argKey2
  | argKey3
  | msgLen
  /-- `MSG[w]`. -/
  | msgWord (w : Nat)
  | reserved
  deriving DecidableEq, Repr

/-- The named registers and their offsets, in the map's order (R62). -/
def regMap : List (Nat × Reg) :=
  [(0x000, .cmd), (0x004, .status), (0x008, .idLo), (0x00C, .idHi), (0x010, .tsBits),
   (0x014, .wcountLo), (0x018, .wcountHi), (0x020, .argInstance), (0x024, .argCkey),
   (0x028, .argEpochLo), (0x02C, .argEpochHi), (0x030, .argKey0), (0x034, .argKey1),
   (0x038, .argKey2), (0x03C, .argKey3), (0x040, .msgLen)]

/-- The register a list names at an offset. -/
def findReg : List (Nat × Reg) → Nat → Option Reg
  | [], _ => none
  | (o, r) :: rest, n => if n = o then some r else findReg rest n

/-- The register at an aligned offset, for a message buffer of `msgMax` bytes (R62). -/
def regAt (msgMax : Nat) (off : Offset) : Reg :=
  match findReg regMap off.toNat with
  | some r => r
  | none =>
    if 0x100 ≤ off.toNat ∧ off.toNat < 0x100 + msgMax then .msgWord ((off.toNat - 0x100) / 4) else .reserved

/-- `MSG[w]` as read: `{msg[4w+3], msg[4w+2], msg[4w+1], msg[4w]}` (R63). -/
def msgWordRead (b : Block) (w : Nat) : Word :=
  wordOfLanes (msgByte b (4 * w)) (msgByte b (4 * w + 1)) (msgByte b (4 * w + 2)) (msgByte b (4 * w + 3))

/-- `MSG[w]` written: `msg[4w+j] <- v[8j+7:8j]` for j = 0..3 (R64). -/
def msgWordWrite (w : Nat) (v : Word) (b : Block) : Block :=
  { b with
    msg := sparseSet (sparseSet (sparseSet (sparseSet b.msg (4 * w) (byteLane v 0))
      (4 * w + 1) (byteLane v 1)) (4 * w + 2) (byteLane v 2)) (4 * w + 3) (byteLane v 3) }

/-- What a read of a register returns (R62, R63). ERR in 8..15 is never produced, and a model that reads
it stops (93 section 2; #12). -/
def readReg (b : Block) : Reg → Except Fault Word
  | .cmd => .ok 0
  | .status => if 7 < b.err.toNat then .error (.reservedErrorCode b.err) else .ok (statusWord b)
  | .idLo => .ok (lowWord b.idReg)
  | .idHi => .ok (highWord b.idReg)
  | .tsBits => .ok (b.tsBits.setWidth 32)
  | .wcountLo => .ok (lowWord b.wcount)
  | .wcountHi => .ok (highWord b.wcount)
  | .argInstance => .ok b.argInstance
  | .argCkey => .ok b.argCkey
  | .argEpochLo => .ok b.argEpochLo
  | .argEpochHi => .ok b.argEpochHi
  | .argKey0 => .ok b.argKey0
  | .argKey1 => .ok b.argKey1
  | .argKey2 => .ok b.argKey2
  | .argKey3 => .ok b.argKey3
  | .msgLen => .ok b.msgLen
  | .msgWord w => .ok (msgWordRead b w)
  | .reserved => .ok 0

/-- What a write stores in a register other than CMD; a write of an RO register or a reserved offset
has no effect (R62, R64). CMD stores nothing: its write is a command. -/
def writeReg (v : Word) (b : Block) : Reg → Block
  | .cmd => b
  | .status => b
  | .idLo => b
  | .idHi => b
  | .tsBits => b
  | .wcountLo => b
  | .wcountHi => b
  | .argInstance => { b with argInstance := v }
  | .argCkey => { b with argCkey := v }
  | .argEpochLo => { b with argEpochLo := v }
  | .argEpochHi => { b with argEpochHi := v }
  | .argKey0 => { b with argKey0 := v }
  | .argKey1 => { b with argKey1 := v }
  | .argKey2 => { b with argKey2 := v }
  | .argKey3 => { b with argKey3 := v }
  | .msgLen => { b with msgLen := v }
  | .msgWord w => msgWordWrite w v b
  | .reserved => b

/-- `Command(v)` (R95): run the command, or ILLEGAL. -/
def command (run : Instr → State → Host.Outcome State Fault Refusal) (v : Word) (s : State) :
    Host.Outcome State Fault Refusal :=
  match decode v with
  | .ok i => run i s
  | .error _ => execIllegal s

/-- `BusRead(off)` (R63): no state of the block changes; the host gets the value. -/
def busRead (P : Params) (off : Offset) (s : State) : Host.Outcome State Fault Refusal :=
  match readReg s.block (regAt P.msgMax off) with
  | .ok v => .next { s with responses := v :: s.responses }
  | .error f => .fault f

/-- `BusWrite(off, v)` (R64). -/
def busWrite (P : Params) (run : Instr → State → Host.Outcome State Fault Refusal) (off : Offset)
    (v : Word) (s : State) : Host.Outcome State Fault Refusal :=
  if regAt P.msgMax off = .cmd then command run v s
  else .next { s with block := writeReg v s.block (regAt P.msgMax off) }

/-- One action of the host. An access that is no aligned word is refused (R70; #10). -/
def transact (P : Params) (run : Instr → State → Host.Outcome State Fault Refusal) (a : HostAction)
    (s : State) : Host.Outcome State Fault Refusal :=
  match a with
  | .read off => if Offset.aligned off then busRead P off s else .refused (.unalignedAccess off)
  | .write off v => if Offset.aligned off then busWrite P run off v s else .refused (.unalignedAccess off)
  | .time now => .next { s with nextTime := some now }
  | .reset => .next (resetBlock P s)

/-- One step of the host's stream: the next action, or nothing if the host presents none (R15, R231;
#1). -/
def hostStep (P : Params) (run : Instr → State → Host.Outcome State Fault Refusal) (s : State) :
    Host.Outcome State Fault Refusal :=
  match s.pending with
  | [] => .next s
  | a :: rest => transact P run a { s with pending := rest }

/-- The host presents these actions before those it already means to. -/
def present (prog : List HostAction) (s : State) : State := { s with pending := prog ++ s.pending }

/-- The action that writes a word to CMD (R62, R90). -/
def cmdWrite (v : Word) : HostAction := .write 0x000 v

end Sys2Proof.Machine
end

