-- ==== Sys2Proof/Machine/Construct.lean ====
section
/-! DEFINITION. The commands that write the configuration: NEW (R160), CUSTOM (R161) and
SET_INSTANCE_ID (R162). A command that uses parameters is given for any and then for this hardware's. -/

namespace Sys2Proof.Machine

/-- NEW (R160). -/
def execNewWith (P : Params) (s : State) : Host.Outcome State Fault Refusal :=
  .next (commit (afterSample s)
    (match timeBits P P.defaultEpoch (timeSample s) with
     | .error e => .error e
     | .ok t =>
       .ok (startWindow t
         (configure P.defaultInstanceId P.defaultHashKey P.defaultCounterKey P.defaultEpoch s.block))))

/-- CUSTOM (R161). The instance id is checked before the time port is sampled (R206; #14). -/
def execCustomWith (P : Params) (s : State) : Host.Outcome State Fault Refusal :=
  if instanceTooHigh s.block then .next (commit s (.error .instanceIdTooHigh))
  else
    .next (commit (afterSample s)
      (match timeBits P (epochOperand s.block) (timeSample s) with
       | .error e => .error e
       | .ok t =>
         .ok (startWindow t
           (configure (instanceOperand s.block) (keyOperand s.block) (counterKeyOperand s.block)
             (epochOperand s.block) s.block))))

/-- SET_INSTANCE_ID (R162). It uses no parameter, so it is the same under all of them. -/
def execSetInstanceId (s : State) : Host.Outcome State Fault Refusal :=
  if instanceTooHigh s.block then .next (commit s (.error .instanceIdTooHigh))
  else .next (commit s (.ok { s.block with cfgInstanceId := instanceOperand s.block }))

/-- NEW on this hardware. -/
def execNew (s : State) : Host.Outcome State Fault Refusal := execNewWith Config.hardware.toParams s

/-- CUSTOM on this hardware. -/
def execCustom (s : State) : Host.Outcome State Fault Refusal := execCustomWith Config.hardware.toParams s

end Sys2Proof.Machine
end

