-- ==== Sys2Proof/Machine/Refresh.lean ====
section
/-! DEFINITION. The command that refreshes the window timestamp: UPDATE_TIME (R163). -/

namespace Sys2Proof.Machine

/-- UPDATE_TIME (R163). In the fresh state a window is always started (D24). -/
def execUpdateTimeWith (P : Params) (s : State) : Host.Outcome State Fault Refusal :=
  .next (commit (afterSample s)
    (match timeBits P s.block.cfgEpoch (timeSample s) with
     | .error e => .error e
     | .ok t =>
       if s.block.tsValid = false ∨ t ≠ s.block.tsBits then .ok (startWindow t s.block)
       else .ok s.block))

/-- UPDATE_TIME on this hardware. -/
def execUpdateTime (s : State) : Host.Outcome State Fault Refusal :=
  execUpdateTimeWith Config.hardware.toParams s

end Sys2Proof.Machine
end

