-- ==== Sys2Proof/Machine/Dispatch.lean ====
section
/-! DEFINITION. One arm per command. -/

namespace Sys2Proof.Machine

/-- The meaning of each command on this hardware. -/
def exec (i : Instr) (s : State) : Host.Outcome State Fault Refusal :=
  match i with
  | .new => Sys2Proof.Machine.execNew s
  | .custom => Sys2Proof.Machine.execCustom s
  | .setInstanceId => Sys2Proof.Machine.execSetInstanceId s
  | .updateTime => Sys2Proof.Machine.execUpdateTime s
  | .nextId => Sys2Proof.Machine.execNextId s
  | .nextIdWithHash => Sys2Proof.Machine.execNextIdWithHash s

end Sys2Proof.Machine
end

