-- ==== Sys2Proof/Machine/Step.lean ====
section
/-! DEFINITION. One step of the machine, and the state in which the next step runs a given command. -/

namespace Sys2Proof.Machine

/-- One step: the host's next action (00_scope.md R15). -/
def step (s : State) : Host.Outcome State Fault Refusal :=
  hostStep Config.hardware.toParams exec s

/-- The host's next action writes the word to CMD: the block fetches no instruction, it executes the
command each CMD write carries (10_state.md R21, 20_memory.md R78; #1). -/
def State.withFetchWord (s : State) (nbits w : Nat) : State :=
  present [cmdWrite (BitVec.ofNat 32 (w % 2 ^ nbits))] s

end Sys2Proof.Machine
end

