-- ==== Sys2Proof/Machine/Assembly.lean ====
section
/-! DEFINITION. The host assembly syntax (30_encoding.md R96) and the expansions of its
pseudo-instructions (R97). A host program is a list of host actions. -/

namespace Sys2Proof.Machine

/-- `offset(REG)` (R62, R96). The reserved offsets have no name; 0x01C is the first of them. -/
def offsetOf : Reg → Offset
  | .cmd => 0x000
  | .status => 0x004
  | .idLo => 0x008
  | .idHi => 0x00C
  | .tsBits => 0x010
  | .wcountLo => 0x014
  | .wcountHi => 0x018
  | .argInstance => 0x020
  | .argCkey => 0x024
  | .argEpochLo => 0x028
  | .argEpochHi => 0x02C
  | .argKey0 => 0x030
  | .argKey1 => 0x034
  | .argKey2 => 0x038
  | .argKey3 => 0x03C
  | .msgLen => 0x040
  | .msgWord w => BitVec.ofNat 12 (0x100 + 4 * w)
  | .reserved => 0x01C

/-- `wr <REG>, <value>` (R96). -/
def wr (r : Reg) (v : Word) : HostAction := .write (offsetOf r) v

/-- `rd <REG>` (R96). -/
def rd (r : Reg) : HostAction := .read (offsetOf r)

/-- `cmd.new`, `cmd.custom`, `cmd.setinst`, `cmd.update`, `cmd.next` and `cmd.nexth` (R97). -/
def asmCommand (i : Instr) : HostAction := wr .cmd (encode i)

/-- `ld64 ARG_EPOCH, <v>` (R97). -/
def asmLd64Epoch (v : DWord) : List HostAction :=
  [wr .argEpochLo (lowWord v), wr .argEpochHi (highWord v)]

/-- `ldkey <k0..k15>` (R97). -/
def asmLdkey (k : Key) : List HostAction :=
  [wr .argKey0 (wordOfLanes k[0] k[1] k[2] k[3]),
   wr .argKey1 (wordOfLanes k[4] k[5] k[6] k[7]),
   wr .argKey2 (wordOfLanes k[8] k[9] k[10] k[11]),
   wr .argKey3 (wordOfLanes k[12] k[13] k[14] k[15])]

/-- Word `w` of a message of `ldmsg`, absent bytes 0 (R97). -/
def asmMsgWord (bs : List Byte) (w : Nat) : Word :=
  wordOfLanes (bs.getD (4 * w) 0) (bs.getD (4 * w + 1) 0) (bs.getD (4 * w + 2) 0) (bs.getD (4 * w + 3) 0)

/-- `ldmsg <b0..b(n-1)>` (R97). -/
def asmLdmsg (bs : List Byte) : List HostAction :=
  (List.range ((bs.length + 3) / 4)).map (fun w => wr (.msgWord w) (asmMsgWord bs w))
    ++ [wr .msgLen (BitVec.ofNat 32 bs.length)]

/-- `rd64 ID` (R97). -/
def asmRd64Id : List HostAction := [rd .idLo, rd .idHi]

/-- `rd64 WCOUNT` (R97). -/
def asmRd64Wcount : List HostAction := [rd .wcountLo, rd .wcountHi]

end Sys2Proof.Machine
end

