-- ==== Sys2Proof/Machine/Engine.lean ====
section
/-! DEFINITION. The machine for any parameters that passed the check (00_scope.md R7, 42_permutation.md
R134). `exec` and `step` are this machine at this hardware's parameters: Sys2Proof/Laws/Exec.lean. -/

namespace Sys2Proof.Machine

/-- The meaning of each command under the parameters `P`. -/
def execWith (P : CheckedParams) : Instr → State → Host.Outcome State Fault Refusal
  | .new => execNewWith P.toParams
  | .custom => execCustomWith P.toParams
  | .setInstanceId => execSetInstanceId
  | .updateTime => execUpdateTimeWith P.toParams
  | .nextId => execNextIdWith P.toParams
  | .nextIdWithHash => execNextIdWithHashWith P.toParams

/-- One step under the parameters `P`. -/
def stepWith (P : CheckedParams) (s : State) : Host.Outcome State Fault Refusal :=
  hostStep P.toParams (execWith P) s

end Sys2Proof.Machine
end

