-- ==== Sys2Proof/Safety.lean ====
section
/-! DEFINITION. The terms in which claims about runs are stated: the invariant of 10_state.md R34, the
issue of an identifier, and the window it is issued in. -/

namespace Sys2Proof.Machine

/-- The sum of the collision table over its 16384 slots (R34 (b)). -/
def tableTotal (t : CollisionTable) : Nat := ∑ s : Fin 16384, (sparseGet t s.val).toNat

/-- What every reachable block satisfies (R34, R112, R200), with the canonical form of its two stores. -/
structure BlockInv (msgMax : Nat) (b : Block) : Prop where
  /-- The collision table is in canonical form. -/
  tableWf : CollisionTable.wf b.table = true
  /-- The message buffer is in canonical form. -/
  msgWf : Memory.wf msgMax b.msg = true
  /-- R34 (a). -/
  counterBound : ∀ s : Slot, (tableGet b.table s).toNat ≤ 256
  /-- R34 (b). -/
  countIsSum : b.wcount.toNat = tableTotal b.table
  /-- R34 (d). -/
  freshIsZero : b.tsValid = false →
    b.tsBits = 0 ∧ b.wcount = 0 ∧ ∀ s : Slot, tableGet b.table s = 0
  /-- Codes 8..15 are never produced (R200). -/
  errBound : b.err.toNat ≤ 7
  /-- Bit 63 of the result register is 0 (R112). -/
  idTopBit : b.idReg.getLsbD 63 = false

/-- The invariant of this hardware. -/
def Inv (s : State) : Prop := BlockInv Config.hardware.msgMax s.block

/-- A step from `s` to `t` in which an issuing command succeeded. -/
def Issued (s t : State) : Prop :=
  ∃ i rest, (i = Instr.nextId ∨ i = Instr.nextIdWithHash) ∧ s.pending = asmCommand i :: rest ∧
    step s = .next t ∧ t.block.err = 0

/-- The step from `s` to `t` started a window or reset the block (R152, R230): NEW or CUSTOM succeeded,
UPDATE_TIME succeeded in the fresh state or with other timestamp bits, or the reset input was asserted. -/
def startsWindow (s t : State) : Prop :=
  s.pending.head? = some .reset ∨
  ((s.pending.head? = some (asmCommand .new) ∨ s.pending.head? = some (asmCommand .custom)) ∧
    t.block.err = 0) ∨
  (s.pending.head? = some (asmCommand .updateTime) ∧ t.block.err = 0 ∧
    (s.block.tsValid = false ∨ t.block.tsBits ≠ s.block.tsBits))

/-- A run in which no step starts a window (R13, R152). -/
inductive SameWindow : State → State → Prop where
  | refl (s : State) : SameWindow s s
  | step {s t u : State} (h : SameWindow s t) (hstep : Machine.step t = .next u)
      (hwin : ¬ startsWindow t u) : SameWindow s u

/-- Every field of the block holds the value rule R36 gives it. -/
def HoldsResetValues (b : Block) : Prop :=
  b.err = 0 ∧ b.tsValid = false ∧ b.tsBits = 0 ∧ (∀ s : Slot, tableGet b.table s = 0) ∧
  b.wcount = 0 ∧ b.idReg = 0 ∧ b.cfgInstanceId = 0 ∧ b.cfgHashKey = Config.defaultHashKey ∧
  b.cfgCounterKey = 42 ∧ b.cfgEpoch = 1719792000 ∧ b.argInstance = 0 ∧ b.argCkey = 0 ∧
  b.argEpochLo = 0 ∧ b.argEpochHi = 0 ∧ b.argKey0 = 0 ∧ b.argKey1 = 0 ∧ b.argKey2 = 0 ∧ b.argKey3 = 0 ∧
  b.msgLen = 0 ∧ (∀ i : Nat, msgByte b i = 0)

/-- `t` is `s` after the issue of an identifier in `slot` at the pre-increment counter `c`, with the
packer's instance operand `inst`, under the parameters `P` (R153, R155, R110): the five fields of the
identifier, the counter and the window counter one up, and nothing else changed. -/
def IssueResult (P : Params) (s t : State) (slot : Slot) (c : Nat) (inst : BitVec 10) : Prop :=
  t.block.idReg.extractLsb' 49 14 = slot ∧
  t.block.idReg.extractLsb' 18 31 = s.block.tsBits ∧
  t.block.idReg.extractLsb' 8 10 = inst ∧
  t.block.idReg.extractLsb' 0 8 = permute (BitVec.ofNat 8 c ^^^ s.block.cfgCounterKey) P.perm8 ∧
  t.block.idReg.getLsbD 63 = false ∧
  t.block.wcount = s.block.wcount + 1 ∧
  (tableGet t.block.table slot).toNat = c + 1 ∧
  (∀ x : Slot, x ≠ slot → tableGet t.block.table x = tableGet s.block.table x) ∧
  t = { s with
    block := { s.block with
      err := 0, table := t.block.table, wcount := t.block.wcount, idReg := t.block.idReg } }

/-- `slot` is the first of the probed slots `s0, s0+1, ..` modulo 16384 that does not hold 256, `c` its
counter, and the probe limit `n` reaches it (R153, R154). -/
def FirstFreeSlot (t : CollisionTable) (s0 : Slot) (n : Nat) (slot : Slot) (c : Nat) : Prop :=
  ∃ j < n, slot = BitVec.ofNat 14 (s0.toNat + j) ∧ (tableGet t slot).toNat = c ∧ c < 256 ∧
    ∀ p < j, tableGet t (BitVec.ofNat 14 (s0.toNat + p)) = 256

/-- Every one of the `n` probed slots holds 256 (R157). -/
def AllExhausted (t : CollisionTable) (s0 : Slot) (n : Nat) : Prop :=
  ∀ p < n, tableGet t (BitVec.ofNat 14 (s0.toNat + p)) = 256

/-- `n` executions of one command in a row under the parameters `P`, with nothing between them. -/
def repeatExec (P : CheckedParams) (i : Instr) : Nat → State → Option State
  | 0, s => some s
  | n + 1, s =>
    match execWith P i s with
    | .next t => repeatExec P i n t
    | .fault _ => none
    | .refused _ => none

/-- The block takes the actions of a host program one after another and stops at none. -/
def runProgram : List HostAction → State → Option State
  | [], s => some s
  | a :: rest, s =>
    match transact Config.hardware.toParams exec a s with
    | .next t => runProgram rest t
    | .fault _ => none
    | .refused _ => none

end Sys2Proof.Machine
end

