-- ==== Sys2Proof/Certificates/Slice0/Obligations.lean ====
section
/-! DEFINITION. The statements for the provers. Every statement holds of this hardware's model whatever
the OPEN parameters are (00_scope.md R7); where it speaks of any parameters, it takes them checked. How
the host's actions, its answers and the time port are held in the state is the model's choice (#1-#5). -/

open Sys2Proof Sys2Proof.Machine

/-! ### Decoding (30_encoding.md) -/

/-- R92, R95: decoding and encoding agree on the command words of the opcode map: each command's encoding
is its row's word, and a word decodes to a command exactly if it is that command's encoding. -/
def Obligations.DecodeEncodeAgree : Prop :=
  (encode .new = 0x00000001 ∧ encode .custom = 0x00000002 ∧ encode .setInstanceId = 0x00000003 ∧
    encode .updateTime = 0x00000004 ∧ encode .nextId = 0x00000005 ∧ encode .nextIdWithHash = 0x00000006) ∧
  ∀ i : Instr, i.wf = true → ∀ v : Word, decode v = .ok i ↔ v = encode i

/-- R93, R166: the words with RSVD ≠ 0 or OPC in 0x0, 0x7 .. 0xF, and no others, are illegal; writing one
to CMD sets ERR to 6 and changes nothing else. -/
def Obligations.IllegalWordSetsErrOnly : Prop :=
  ∀ v : Word,
    ((∃ e, decode v = .error e) ↔ v.toNat / 16 ≠ 0 ∨ v.toNat % 16 = 0 ∨ 7 ≤ v.toNat % 16) ∧
    (v.toNat / 16 ≠ 0 ∨ v.toNat % 16 = 0 ∨ 7 ≤ v.toNat % 16 →
      ∀ (s : State) (rest : List HostAction), s.pending = .write 0x000 v :: rest →
        step s = .next { s with pending := rest, block := { s.block with err := 6 } })

/-- R92: sample words, written out from the opcode map. -/
def Obligations.SampleWordsDecode : Prop :=
  decode 0b00000000000000000000000000000001 = .ok .new ∧
  decode 0b00000000000000000000000000000100 = .ok .updateTime ∧
  decode 0b00000000000000000000000000000110 = .ok .nextIdWithHash ∧
  decode 0b00000000000000000000000000010101 = .error .reservedBitsSet ∧
  decode 0b00000000000000000000000000000111 = .error .unassignedOpcode

/-- R64, R90, R95: when the host's next action writes a word to CMD that decodes to a well-formed command,
the step is that command, run with the action taken off the host's list and nothing else changed. -/
def Obligations.StepRunsDecodedCommand : Prop :=
  ∀ (s : State) (rest : List HostAction) (v : Word) (i : Instr),
    s.pending = .write 0x000 v :: rest → decode v = .ok i → i.wf = true →
    step s = exec i { s with pending := rest }

/-! ### Reset (10_state.md R36, 70_reset_and_hazards.md R230, R231) -/

/-- R36: every piece of the block's state has its reset value after reset. -/
def Obligations.ResetStateHoldsResetValues : Prop := HoldsResetValues State.reset.block

/-- R230: asserting reset gives every piece of the block's state its reset value and does not read the
time port. That the reset input is an action of the host is the model's choice (#5). -/
def Obligations.ResetInputRestoresBlock : Prop :=
  ∀ (s : State) (rest : List HostAction), s.pending = .reset :: rest →
    ∃ t, step s = .next t ∧ HoldsResetValues t.block ∧ t.block = State.reset.block ∧
      t = { s with pending := rest, block := t.block }

/-- R36, R62, R63: after reset every aligned offset reads 0. -/
def Obligations.EveryOffsetReadsZeroAfterReset : Prop :=
  ∀ (s : State) (rest : List HostAction) (off : Offset), HoldsResetValues s.block → off.toNat % 4 = 0 →
    s.pending = .read off :: rest →
    step s = .next { s with pending := rest, responses := 0 :: s.responses }

/-- R231: in the fresh state both issuing commands fail with NOT_READY, SET_INSTANCE_ID works, and only a
successful NEW, CUSTOM or UPDATE_TIME leaves the fresh state. -/
def Obligations.FreshBlockCannotIssue : Prop :=
  ∀ s : State, s.block.tsValid = false →
    exec .nextId s = .next { s with block := { s.block with err := 5 } } ∧
    exec .nextIdWithHash s = .next { s with block := { s.block with err := 5 } } ∧
    (s.block.argInstance.toNat ≤ 16383 →
      exec .setInstanceId s = .next { s with block := { s.block with
        err := 0, cfgInstanceId := BitVec.ofNat 14 s.block.argInstance.toNat } }) ∧
    ∀ t : State, step s = .next t → t.block.tsValid = true →
      t.block.err = 0 ∧ ∃ v rest, s.pending = .write 0x000 v :: rest ∧ (v = 1 ∨ v = 2 ∨ v = 4)

/-! ### The host bus (20_memory.md) -/

/-- R63: what a read of each offset returns; no read changes any state of the block. STATUS is read where
ERR is a code that is produced (R200); on any other code see `ImpossibleValuesStop`. -/
def Obligations.BusReadReturnsRegister : Prop :=
  ∀ (s : State) (rest : List HostAction),
    let reads := fun (off : Offset) (v : Word) =>
      step { s with pending := .read off :: rest } =
        .next { s with pending := rest, responses := v :: s.responses }
    reads 0x000 0 ∧
    (s.block.err.toNat ≤ 7 →
      reads 0x004 (BitVec.ofNat 32 (s.block.err.toNat + if s.block.tsValid then 16 else 0))) ∧
    reads 0x008 (BitVec.ofNat 32 s.block.idReg.toNat) ∧
    reads 0x00C (BitVec.ofNat 32 (s.block.idReg.toNat / 2 ^ 32)) ∧
    reads 0x010 (BitVec.ofNat 32 s.block.tsBits.toNat) ∧
    reads 0x014 (BitVec.ofNat 32 s.block.wcount.toNat) ∧
    reads 0x018 (BitVec.ofNat 32 (s.block.wcount.toNat / 2 ^ 32)) ∧
    reads 0x020 s.block.argInstance ∧ reads 0x024 s.block.argCkey ∧
    reads 0x028 s.block.argEpochLo ∧ reads 0x02C s.block.argEpochHi ∧
    reads 0x030 s.block.argKey0 ∧ reads 0x034 s.block.argKey1 ∧
    reads 0x038 s.block.argKey2 ∧ reads 0x03C s.block.argKey3 ∧
    reads 0x040 s.block.msgLen ∧
    (∀ w < 64, reads (BitVec.ofNat 12 (0x100 + 4 * w))
      (BitVec.ofNat 32 ((msgByte s.block (4 * w)).toNat + 2 ^ 8 * (msgByte s.block (4 * w + 1)).toNat +
        2 ^ 16 * (msgByte s.block (4 * w + 2)).toNat + 2 ^ 24 * (msgByte s.block (4 * w + 3)).toNat))) ∧
    (∀ off : Offset, off.toNat % 4 = 0 →
      (off = 0x01C ∨ (0x044 ≤ off.toNat ∧ off.toNat ≤ 0x0FC) ∨ 0x200 ≤ off.toNat) → reads off 0)

/-- R64: what a write of each offset does. -/
def Obligations.BusWriteStoresOrCommands : Prop :=
  ∀ (s : State) (rest : List HostAction) (v : Word),
    let leaves := fun (off : Offset) (b : Block) =>
      step { s with pending := .write off v :: rest } = .next { s with pending := rest, block := b }
    (∀ i, decode v = .ok i →
      step { s with pending := .write 0x000 v :: rest } = exec i { s with pending := rest }) ∧
    (∀ e, decode v = .error e → leaves 0x000 { s.block with err := 6 }) ∧
    (∀ off : Offset, off.toNat % 4 = 0 →
      (0x004 ≤ off.toNat ∧ off.toNat ≤ 0x01C) ∨ (0x044 ≤ off.toNat ∧ off.toNat ≤ 0x0FC) ∨ 0x200 ≤ off.toNat →
      leaves off s.block) ∧
    leaves 0x020 { s.block with argInstance := v } ∧ leaves 0x024 { s.block with argCkey := v } ∧
    leaves 0x028 { s.block with argEpochLo := v } ∧ leaves 0x02C { s.block with argEpochHi := v } ∧
    leaves 0x030 { s.block with argKey0 := v } ∧ leaves 0x034 { s.block with argKey1 := v } ∧
    leaves 0x038 { s.block with argKey2 := v } ∧ leaves 0x03C { s.block with argKey3 := v } ∧
    leaves 0x040 { s.block with msgLen := v } ∧
    (∀ w < 64, ∃ b, leaves (BitVec.ofNat 12 (0x100 + 4 * w)) b ∧ b = { s.block with msg := b.msg } ∧
      ∀ a, msgByte b a = if a / 4 = w then v.extractLsb' (8 * (a % 4)) 8 else msgByte s.block a)

/-- R70: an access that is not an aligned word is refused. -/
def Obligations.UnalignedAccessIsRefused : Prop :=
  ∀ (s : State) (rest : List HostAction) (off : Offset), off.toNat % 4 ≠ 0 →
    (s.pending = .read off :: rest → step s = .refused (.unalignedAccess off)) ∧
    (∀ v, s.pending = .write off v :: rest → step s = .refused (.unalignedAccess off))

/-- R72: a write to an argument or MSG register, to a read-only register or to a reserved offset is
idempotent. -/
def Obligations.RegisterWritesAreIdempotent : Prop :=
  ∀ (s : State) (rest : List HostAction) (off : Offset) (v : Word), Inv s →
    off.toNat % 4 = 0 → off ≠ 0 →
    ∃ t u, step { s with pending := .write off v :: .write off v :: rest } = .next t ∧
      step t = .next u ∧ u.block = t.block ∧ u.pending = rest

/-- R71, R72: an action that is neither a write to CMD nor the reset input leaves everything but the
argument registers and the message buffer unchanged; a read and a time line leave the whole block. -/
def Obligations.OnlyCmdWritesHaveSideEffects : Prop :=
  ∀ (s t : State) (a : HostAction) (rest : List HostAction), s.pending = a :: rest → step s = .next t →
    a ≠ .reset → (∀ v, a ≠ .write 0x000 v) →
    t.block = { s.block with
      argInstance := t.block.argInstance, argCkey := t.block.argCkey,
      argEpochLo := t.block.argEpochLo, argEpochHi := t.block.argEpochHi,
      argKey0 := t.block.argKey0, argKey1 := t.block.argKey1,
      argKey2 := t.block.argKey2, argKey3 := t.block.argKey3,
      msgLen := t.block.msgLen, msg := t.block.msg } ∧
    ((∀ off v, a ≠ .write off v) → t.block = s.block) ∧ t.pending = rest

/-- R65, R67, R71, R97: `ldkey` and `ld64` leave exactly the key and the epoch that CUSTOM reads, `rd64`
returns the two words of one 64-bit value, and none changes anything else. -/
def Obligations.RegisterPseudosMoveOperands : Prop :=
  ∀ (s : State) (k : Key) (v : DWord),
    (∃ t, runProgram (asmLdkey k) s = some t ∧ keyOperand t.block = k ∧
      t = { s with block := { s.block with
        argKey0 := t.block.argKey0, argKey1 := t.block.argKey1,
        argKey2 := t.block.argKey2, argKey3 := t.block.argKey3 } }) ∧
    (∃ t, runProgram (asmLd64Epoch v) s = some t ∧ epochOperand t.block = v ∧
      t = { s with block := { s.block with
        argEpochLo := t.block.argEpochLo, argEpochHi := t.block.argEpochHi } }) ∧
    (∃ lo hi : Word, runProgram asmRd64Id s = some { s with responses := hi :: lo :: s.responses } ∧
      hi ++ lo = s.block.idReg) ∧
    (∃ lo hi : Word, runProgram asmRd64Wcount s = some { s with responses := hi :: lo :: s.responses } ∧
      hi ++ lo = s.block.wcount)

/-- R66, R97: `ldmsg` leaves the buffer and MSG_LEN so that NEXT_ID_WITH_HASH hashes exactly the bytes
given, for every message the buffer holds, and changes no other register and no byte past its last
word. -/
def Obligations.LdmsgLoadsMessage : Prop :=
  ∀ (s : State) (bs : List Byte), bs.length ≤ 256 →
    ∃ t, runProgram (asmLdmsg bs) s = some t ∧ messageOperand t.block = bs ∧
      t.block.msgLen.toNat = bs.length ∧
      (∀ a, 4 * ((bs.length + 3) / 4) ≤ a → msgByte t.block a = msgByte s.block a) ∧
      t = { s with block := { s.block with msg := t.block.msg, msgLen := t.block.msgLen } }

/-! ### The internal units (40 to 43) -/

/-- R110, R112: the packed value is the OR of the shifted fields, each cut to its width; the fields stand
where the layout says, and bit 63 is 0. -/
def Obligations.PackPlacesFields : Prop :=
  ∀ (h : BitVec 16) (t : BitVec 32) (i : BitVec 16) (q : BitVec 8),
    (pack h t i q).toNat =
      ((h.toNat % 2 ^ 14) <<< 49) ||| ((t.toNat % 2 ^ 31) <<< 18) ||| ((i.toNat % 2 ^ 10) <<< 8) ||| q.toNat ∧
    (pack h t i q).extractLsb' 49 14 = h.setWidth 14 ∧ (pack h t i q).extractLsb' 18 31 = t.setWidth 31 ∧
    (pack h t i q).extractLsb' 8 10 = i.setWidth 10 ∧ (pack h t i q).extractLsb' 0 8 = q ∧
    (pack h t i q).getLsbD 63 = false

/-- R111, R113: bits above a field's width never reach the packed value, unpacking inverts packing, and
two tuples in range pack to the same value only if they are equal. -/
def Obligations.UnpackInvertsPack : Prop :=
  ∀ (h h' : BitVec 16) (t t' : BitVec 32) (i i' : BitVec 16) (q q' : BitVec 8),
    pack h t i q = pack (h &&& 0x3FFF) (t &&& 0x7FFFFFFF) (i &&& 0x3FF) q ∧
    (h.toNat < 2 ^ 14 → t.toNat < 2 ^ 31 → i.toNat < 2 ^ 10 →
      (idHash (pack h t i q)).toNat = h.toNat ∧ (idTimestamp (pack h t i q)).toNat = t.toNat ∧
      (idInstance (pack h t i q)).toNat = i.toNat ∧ idSequence (pack h t i q) = q ∧
      (h'.toNat < 2 ^ 14 → t'.toNat < 2 ^ 31 → i'.toNat < 2 ^ 10 → pack h t i q = pack h' t' i' q' →
        h = h' ∧ t = t' ∧ i = i' ∧ q = q'))

/-- R131: output bit `i` takes the bit from position `T[i]` of the input. -/
def Obligations.PermuteTakesTableBits : Prop :=
  ∀ (n : Nat) (v : BitVec n) (T : List Nat), T.length = n →
    ∀ (i : Nat) (hi : i < T.length), (permute v T).getLsbD i = v.getLsbD T[i]

/-- R131: a table written most-significant-first acts, once converted, on the most-significant-first
positions. -/
def Obligations.MsbFirstTableConverts : Prop :=
  ∀ (n : Nat) (v : BitVec n) (T : List Nat), T.length = n → (∀ x ∈ T, x < n) →
    ∀ (i : Nat) (hi : i < T.length), (permute v (tableFromMsbFirst T)).getMsbD i = v.getMsbD T[i]

/-- R131: under a bijective table zero stays zero, all ones stay all ones, and the number of ones is
preserved. -/
def Obligations.PermutePreservesPopcount : Prop :=
  ∀ (n : Nat) (T : List Nat), isBijection n T = true →
    permute (0 : BitVec n) T = 0 ∧ permute (BitVec.allOnes n) T = BitVec.allOnes n ∧
    ∀ v : BitVec n, (List.range n).countP (fun i => (permute v T).getLsbD i) =
      (List.range n).countP (fun i => v.getLsbD i)

/-- R134, R136: a bijective table permutes injectively, and this hardware's two tables do. -/
def Obligations.PermutationsAreInjective : Prop :=
  (∀ (n : Nat) (T : List Nat), isBijection n T = true → ∀ a b : BitVec n, permute a T = permute b T → a = b) ∧
  (∀ a b : BitVec 31, p31 Config.params a = p31 Config.params b ↔ a = b) ∧
  (∀ a b : BitVec 8, p8 Config.params a = p8 Config.params b ↔ a = b)

/-- R7, R134: parameters are accepted exactly if each index stands once in each table, the probe limit is
at least 1 and the buffer's size is a multiple of 4 in 4..3840; nothing is changed in them. -/
def Obligations.InstantiationChecksParameters : Prop :=
  ∀ P : Params,
    (∃ Q, P.instantiate = .ok Q ∧ Q.toParams = P) ↔
      (List.Perm P.perm31 (List.range 31) ∧ List.Perm P.perm8 (List.range 8) ∧ 1 ≤ P.probeLimit ∧
        4 ∣ P.msgMax ∧ 4 ≤ P.msgMax ∧ P.msgMax ≤ 3840)

/-- R140: the quantizer on the exact difference. At the threshold 0x3FFFFFFF8 it returns 0x7FFFFFFF; the
decimal number rule R141 gives beside that hexadecimal one is another number (#15). -/
def Obligations.QuantizeIsExact : Prop :=
  ∀ epoch now : DWord,
    (now.toInt - epoch.toInt < 0 → quantize epoch now = .error .epochInFuture) ∧
    (0x3FFFFFFF8 < now.toInt - epoch.toInt → quantize epoch now = .error .timestampOverflow) ∧
    (0 ≤ now.toInt - epoch.toInt → now.toInt - epoch.toInt ≤ 0x3FFFFFFF8 →
      ∃ q, quantize epoch now = .ok q ∧ (q.toNat : Int) = (now.toInt - epoch.toInt) / 8) ∧
    (now.toInt - epoch.toInt = 0x3FFFFFFF8 → quantize epoch now = .ok 2147483647)

/-- R144: the quantizer is monotonic, constant within a bucket, and gives times 8 or more seconds apart
different values. -/
def Obligations.QuantizeBucketsTime : Prop :=
  ∀ (epoch now now' : DWord) (q q' : BitVec 31), quantize epoch now = .ok q → quantize epoch now' = .ok q' →
    (now.toInt ≤ now'.toInt → q.toNat ≤ q'.toNat) ∧
    (∀ k : Int, epoch.toInt + 8 * k ≤ now.toInt → now.toInt ≤ epoch.toInt + 8 * k + 7 →
      epoch.toInt + 8 * k ≤ now'.toInt → now'.toInt ≤ epoch.toInt + 8 * k + 7 → q = q') ∧
    (now.toInt + 8 ≤ now'.toInt → q ≠ q')

/-! ### The commands (44_engine_commands.md) -/

/-- R160: NEW, with the value `now` on the time port. -/
def Obligations.NewOpensDefaultWindow : Prop :=
  ∀ (s : State) (now : DWord), timeSample s = now →
    let leaves := fun b : Block =>
      ∃ t, exec .new s = .next t ∧ t.block = b ∧ t.pending = s.pending ∧ t.responses = s.responses
    (0 ≤ now.toInt - 1719792000 → now.toInt - 1719792000 ≤ 0x3FFFFFFF8 →
      leaves { s.block with
        err := 0
        tsValid := true
        tsBits := p31 Config.params (BitVec.ofNat 31 ((now.toInt - 1719792000) / 8).toNat)
        table := []
        wcount := 0
        cfgInstanceId := 0
        cfgHashKey := Config.defaultHashKey
        cfgCounterKey := 42
        cfgEpoch := 1719792000 }) ∧
    (now.toInt < 1719792000 → leaves { s.block with err := 1 }) ∧
    (0x3FFFFFFF8 < now.toInt - 1719792000 → leaves { s.block with err := 2 })

/-- R161: CUSTOM, with the value `now` on the time port and the argument epoch `ep`. -/
def Obligations.CustomOpensArgumentWindow : Prop :=
  ∀ (s : State) (now : DWord) (ep : Int), timeSample s = now →
    ep = (s.block.argEpochHi ++ s.block.argEpochLo : BitVec 64).toInt →
    let leaves := fun b : Block =>
      ∃ t, exec .custom s = .next t ∧ t.block = b ∧ t.pending = s.pending ∧ t.responses = s.responses
    (16383 < s.block.argInstance.toNat → leaves { s.block with err := 4 }) ∧
    (s.block.argInstance.toNat ≤ 16383 →
      (0 ≤ now.toInt - ep → now.toInt - ep ≤ 0x3FFFFFFF8 →
        ∃ k : Key,
          (∀ n : Fin 16, k.get n =
            ([s.block.argKey0, s.block.argKey1, s.block.argKey2, s.block.argKey3].getD (n.val / 4) 0).extractLsb'
              (8 * (n.val % 4)) 8) ∧
          leaves { s.block with
            err := 0
            tsValid := true
            tsBits := p31 Config.params (BitVec.ofNat 31 ((now.toInt - ep) / 8).toNat)
            table := []
            wcount := 0
            cfgInstanceId := BitVec.ofNat 14 s.block.argInstance.toNat
            cfgHashKey := k
            cfgCounterKey := BitVec.ofNat 8 s.block.argCkey.toNat
            cfgEpoch := s.block.argEpochHi ++ s.block.argEpochLo }) ∧
      (now.toInt < ep → leaves { s.block with err := 1 }) ∧
      (0x3FFFFFFF8 < now.toInt - ep → leaves { s.block with err := 2 }))

/-- R162: SET_INSTANCE_ID, all 32 bits of ARG_INSTANCE compared. -/
def Obligations.SetInstanceIdStoresOrFails : Prop :=
  ∀ s : State,
    (s.block.argInstance.toNat ≤ 16383 →
      ∃ n : BitVec 14, n.toNat = s.block.argInstance.toNat ∧
        exec .setInstanceId s = .next { s with block := { s.block with err := 0, cfgInstanceId := n } }) ∧
    (16383 < s.block.argInstance.toNat →
      exec .setInstanceId s = .next { s with block := { s.block with err := 4 } })

/-- R163: UPDATE_TIME, with the value `now` on the time port: a new window in the fresh state or when the
timestamp bits differ, nothing but ERR otherwise. -/
def Obligations.UpdateTimeRefreshesWindow : Prop :=
  ∀ (s : State) (now : DWord) (bits : TimeBits), timeSample s = now →
    bits = p31 Config.params (BitVec.ofNat 31 ((now.toInt - s.block.cfgEpoch.toInt) / 8).toNat) →
    let leaves := fun b : Block =>
      ∃ t, exec .updateTime s = .next t ∧ t.block = b ∧ t.pending = s.pending ∧ t.responses = s.responses
    (0 ≤ now.toInt - s.block.cfgEpoch.toInt → now.toInt - s.block.cfgEpoch.toInt ≤ 0x3FFFFFFF8 →
      (s.block.tsValid = false ∨ bits ≠ s.block.tsBits →
        leaves { s.block with err := 0, tsValid := true, tsBits := bits, table := [], wcount := 0 }) ∧
      (s.block.tsValid = true → bits = s.block.tsBits → leaves { s.block with err := 0 })) ∧
    (now.toInt < s.block.cfgEpoch.toInt → leaves { s.block with err := 1 }) ∧
    (0x3FFFFFFF8 < now.toInt - s.block.cfgEpoch.toInt → leaves { s.block with err := 2 })

/-- R153, R154, R156, R157: `Issue(m)` under any checked parameters: the first probed slot that does not
hold 256 is used, and the instance field is 0 or the low 10 bits of the instance id. -/
def Obligations.IssueTakesFirstFreeSlot : Prop :=
  ∀ (P : CheckedParams) (m : List Byte) (s : State) (s0 slot : Slot) (c : Nat),
    s0 = (P.kh64 m s.block.cfgHashKey).extractLsb' 0 14 →
    (FirstFreeSlot s.block.table s0 P.probeLimit slot c →
      ∃ t, issue P.toParams m s = .next t ∧
        IssueResult P.toParams s t slot c (if P.packInstance then s.block.cfgInstanceId.setWidth 10 else 0)) ∧
    (AllExhausted s.block.table s0 P.probeLimit →
      issue P.toParams m s = .next { s with block := { s.block with err := 3 } })

/-- R164, R68: NEXT_ID fails in the fresh state; else it hashes the 8 bytes of the window counter, most
significant first, before its increment. -/
def Obligations.NextIdIssuesIdentifier : Prop :=
  ∀ (s : State) (s0 slot : Slot) (c : Nat),
    (s.block.tsValid = false → exec .nextId s = .next { s with block := { s.block with err := 5 } }) ∧
    (s.block.tsValid = true →
      s0 = (Config.kh64 ((List.range 8).map fun k => BitVec.ofNat 8 (s.block.wcount.toNat / 2 ^ (8 * (7 - k))))
        s.block.cfgHashKey).extractLsb' 0 14 →
      (FirstFreeSlot s.block.table s0 10 slot c →
        ∃ t, exec .nextId s = .next t ∧ IssueResult Config.params s t slot c 0) ∧
      (AllExhausted s.block.table s0 10 →
        exec .nextId s = .next { s with block := { s.block with err := 3 } }))

/-- R165, R122: NEXT_ID_WITH_HASH fails in the fresh state, then on a message too long; else it hashes the
first MSG_LEN bytes of the buffer, byte 0 first. -/
def Obligations.NextIdWithHashIssuesIdentifier : Prop :=
  ∀ (s : State) (m : List Byte) (s0 slot : Slot) (c : Nat),
    (s.block.tsValid = false →
      exec .nextIdWithHash s = .next { s with block := { s.block with err := 5 } }) ∧
    (s.block.tsValid = true → 256 < s.block.msgLen.toNat →
      exec .nextIdWithHash s = .next { s with block := { s.block with err := 7 } }) ∧
    (s.block.tsValid = true → s.block.msgLen.toNat ≤ 256 → m.length = s.block.msgLen.toNat →
      (∀ n < m.length, m.getD n 0 = msgByte s.block n) →
      s0 = (Config.kh64 m s.block.cfgHashKey).extractLsb' 0 14 →
      (FirstFreeSlot s.block.table s0 10 slot c →
        ∃ t, exec .nextIdWithHash s = .next t ∧ IssueResult Config.params s t slot c 0) ∧
      (AllExhausted s.block.table s0 10 →
        exec .nextIdWithHash s = .next { s with block := { s.block with err := 3 } }))

/-- 93_implementation_defined.md section 2: the two values no run produces stop the model where they are
read: a counter in 257..511 that an issue probes first (#11), an ERR code 8..15 that STATUS shows (#12). -/
def Obligations.ImpossibleValuesStop : Prop :=
  (∀ (P : CheckedParams) (m : List Byte) (s : State) (s0 : Slot) (j : Nat),
    s0 = (P.kh64 m s.block.cfgHashKey).extractLsb' 0 14 → j < P.probeLimit →
    (∀ p < j, tableGet s.block.table (BitVec.ofNat 14 (s0.toNat + p)) = 256) →
    256 < (tableGet s.block.table (BitVec.ofNat 14 (s0.toNat + j))).toNat →
    issue P.toParams m s = .fault (.counterOutOfRange (BitVec.ofNat 14 (s0.toNat + j)))) ∧
  (∀ (s : State) (rest : List HostAction), s.pending = .read 0x004 :: rest → 8 ≤ s.block.err.toNat →
    step s = .fault (.reservedErrorCode s.block.err))

/-- R206: which error is reported when several hold: the earlier condition of the list is enough for its
code, whatever the later ones are. -/
def Obligations.ErrorPriority : Prop :=
  ∀ s : State,
    (16383 < s.block.argInstance.toNat → ∃ t, exec .custom s = .next t ∧ t.block.err = 4) ∧
    (s.block.argInstance.toNat ≤ 16383 →
      ((timeSample s).toInt < (epochOperand s.block).toInt →
        ∃ t, exec .custom s = .next t ∧ t.block.err = 1) ∧
      (0x3FFFFFFF8 < (timeSample s).toInt - (epochOperand s.block).toInt →
        ∃ t, exec .custom s = .next t ∧ t.block.err = 2)) ∧
    (s.block.tsValid = false → ∃ t, exec .nextIdWithHash s = .next t ∧ t.block.err = 5) ∧
    (s.block.tsValid = true → 256 < s.block.msgLen.toNat →
      ∃ t, exec .nextIdWithHash s = .next t ∧ t.block.err = 7) ∧
    (s.block.tsValid = true → s.block.msgLen.toNat ≤ 256 →
      AllExhausted s.block.table (slotHash Config.params (messageOperand s.block) s.block.cfgHashKey) 10 →
      ∃ t, exec .nextIdWithHash s = .next t ∧ t.block.err = 3) ∧
    (s.block.tsValid = false → ∃ t, exec .nextId s = .next t ∧ t.block.err = 5) ∧
    (s.block.tsValid = true →
      AllExhausted s.block.table (slotHash Config.params (be8 s.block.wcount) s.block.cfgHashKey) 10 →
      ∃ t, exec .nextId s = .next t ∧ t.block.err = 3) ∧
    (∀ (e : DecodeError) (v : Word), decode v = .error e →
      ∃ t, command exec v s = .next t ∧ t.block.err = 6)

/-- R201: a command that fails changes ERR and nothing else of the block. -/
def Obligations.FailingCommandChangesOnlyErr : Prop :=
  ∀ (i : Instr) (s t : State), exec i s = .next t → t.block.err ≠ 0 →
    t.block = { s.block with err := t.block.err } ∧ t.pending = s.pending ∧ t.responses = s.responses

/-- R200: which codes each command reports. -/
def Obligations.ErrorCodesByCommand : Prop :=
  ∀ s t : State,
    (exec .new s = .next t → t.block.err ∈ ([0, 1, 2] : List (BitVec 4))) ∧
    (exec .custom s = .next t → t.block.err ∈ ([0, 1, 2, 4] : List (BitVec 4))) ∧
    (exec .setInstanceId s = .next t → t.block.err ∈ ([0, 4] : List (BitVec 4))) ∧
    (exec .updateTime s = .next t → t.block.err ∈ ([0, 1, 2] : List (BitVec 4))) ∧
    (exec .nextId s = .next t → t.block.err ∈ ([0, 3, 5] : List (BitVec 4))) ∧
    (exec .nextIdWithHash s = .next t → t.block.err ∈ ([0, 3, 5, 7] : List (BitVec 4)))

/-! ### Frames -/

/-- R30, R31: no command writes an argument register, MSG_LEN or a byte of the message buffer, or takes an
action off the host's list or adds an answer. -/
def Obligations.CommandsLeaveArgumentsAndMessage : Prop :=
  ∀ (i : Instr) (s t : State), exec i s = .next t →
    t.block.argInstance = s.block.argInstance ∧ t.block.argCkey = s.block.argCkey ∧
    t.block.argEpochLo = s.block.argEpochLo ∧ t.block.argEpochHi = s.block.argEpochHi ∧
    t.block.argKey0 = s.block.argKey0 ∧ t.block.argKey1 = s.block.argKey1 ∧
    t.block.argKey2 = s.block.argKey2 ∧ t.block.argKey3 = s.block.argKey3 ∧
    t.block.msgLen = s.block.msgLen ∧ (∀ a, msgByte t.block a = msgByte s.block a) ∧
    t.pending = s.pending ∧ t.responses = s.responses

/-- R23, R24: UPDATE_TIME, NEXT_ID and NEXT_ID_WITH_HASH write no configuration register, SET_INSTANCE_ID
writes the instance id alone, and no other action of the host but reset writes any. -/
def Obligations.ConfigurationWriters : Prop :=
  ∀ s t : State,
    (∀ i : Instr, i ≠ .new → i ≠ .custom → exec i s = .next t →
      t.block.cfgHashKey = s.block.cfgHashKey ∧ t.block.cfgCounterKey = s.block.cfgCounterKey ∧
      t.block.cfgEpoch = s.block.cfgEpoch ∧
      (i ≠ .setInstanceId → t.block.cfgInstanceId = s.block.cfgInstanceId)) ∧
    (step s = .next t →
      (t.block.cfgInstanceId ≠ s.block.cfgInstanceId ∨ t.block.cfgHashKey ≠ s.block.cfgHashKey ∨
        t.block.cfgCounterKey ≠ s.block.cfgCounterKey ∨ t.block.cfgEpoch ≠ s.block.cfgEpoch) →
      ∃ rest, s.pending = .reset :: rest ∨
        ∃ v, s.pending = .write 0x000 v :: rest ∧ (v = 1 ∨ v = 2 ∨ v = 3) ∧ t.block.err = 0)

/-- R25: once set, ts_valid goes back to 0 only at reset. -/
def Obligations.TsValidFallsOnlyAtReset : Prop :=
  ∀ s t : State, step s = .next t → s.block.tsValid = true → t.block.tsValid = false →
    ∃ rest, s.pending = .reset :: rest

/-- R29: id_reg changes only in a step in which an issuing command succeeded, or at reset. -/
def Obligations.IdRegisterWriters : Prop :=
  ∀ s t : State, step s = .next t → t.block.idReg ≠ s.block.idReg →
    ∃ rest, s.pending = .reset :: rest ∨
      ∃ v, s.pending = .write 0x000 v :: rest ∧ (v = 5 ∨ v = 6) ∧ t.block.err = 0

/-- R26, R27, R28: a step leaves the timestamp bits, the table and the window counter alone; or it clears
the table and the counter (a window start or reset); or it raises one entry and the counter by 1, and the
timestamp bits stay. -/
def Obligations.WindowStateWriters : Prop :=
  ∀ s t : State, step s = .next t →
    (t.block.tsBits = s.block.tsBits ∧ (∀ x, tableGet t.block.table x = tableGet s.block.table x) ∧
      t.block.wcount = s.block.wcount ∧ t.block.tsValid = s.block.tsValid) ∨
    ((∀ x, tableGet t.block.table x = 0) ∧ t.block.wcount = 0 ∧
      ∃ rest, s.pending = .reset :: rest ∨
        ∃ v, s.pending = .write 0x000 v :: rest ∧ (v = 1 ∨ v = 2 ∨ v = 4) ∧
          t.block.err = 0 ∧ t.block.tsValid = true) ∨
    (t.block.tsBits = s.block.tsBits ∧ t.block.tsValid = true ∧ t.block.wcount = s.block.wcount + 1 ∧
      ∃ slot, (tableGet s.block.table slot).toNat < 256 ∧
        (tableGet t.block.table slot).toNat = (tableGet s.block.table slot).toNat + 1 ∧
        (∀ x, x ≠ slot → tableGet t.block.table x = tableGet s.block.table x) ∧
        ∃ v rest, s.pending = .write 0x000 v :: rest ∧ (v = 5 ∨ v = 6) ∧ t.block.err = 0)

/-! ### The time port -/

/-- R212: NEW and UPDATE_TIME, and CUSTOM when its instance id is legal, take one sample of the time port,
which the model counts (#4); SET_INSTANCE_ID, NEXT_ID and NEXT_ID_WITH_HASH take none. -/
def Obligations.TimeSampledOnce : Prop :=
  ∀ (i : Instr) (s t : State), exec i s = .next t →
    (i = .new ∨ i = .updateTime ∨ (i = .custom ∧ s.block.argInstance.toNat ≤ 16383) →
      t.timeDraws = s.timeDraws + 1 ∧ t.nextTime = none) ∧
    (i = .setInstanceId ∨ i = .nextId ∨ i = .nextIdWithHash →
      t.timeDraws = s.timeDraws ∧ t.nextTime = s.nextTime)

/-- R96, R212: a time line gives the value of the next sample, a later one replaces it, and without one
the sample is a free value (#3, #4). -/
def Obligations.TimeLineGivesNextSample : Prop :=
  ∀ (s : State) (now : DWord) (rest : List HostAction),
    (s.pending = .time now :: rest →
      ∃ t, step s = .next t ∧ timeSample t = now ∧ t = { s with pending := rest, nextTime := some now }) ∧
    (s.nextTime = none → timeSample s = Config.timeDraw s.timeDraws)

/-- R12, R35, R212: what a command does to the block depends on the block and, for the commands that read
it, on the time sample; the others do not depend on the time port at all. -/
def Obligations.CommandDependsOnBlockAndSample : Prop :=
  ∀ (i : Instr) (s s' t : State), s'.block = s.block →
    (i = .setInstanceId ∨ i = .nextId ∨ i = .nextIdWithHash ∨ timeSample s' = timeSample s) →
    exec i s = .next t → ∃ t', exec i s' = .next t' ∧ t'.block = t.block

/-- R165: bytes of the message buffer at MSG_LEN and above do not affect the identifier. -/
def Obligations.BytesPastMsgLenDoNotMatter : Prop :=
  ∀ (s t : State) (msg : Memory),
    (∀ n < s.block.msgLen.toNat, sparseGet msg n = msgByte s.block n) →
    exec .nextIdWithHash s = .next t →
    exec .nextIdWithHash { s with block := { s.block with msg := msg } } =
      .next { t with block := { t.block with msg := msg } }

/-! ### Invariants -/

/-- R34: the invariant holds after reset. -/
def Obligations.InvariantHoldsAtReset : Prop := Inv State.reset

/-- R34: every step keeps the invariant. -/
def Obligations.StepKeepsInvariant : Prop :=
  ∀ s t : State, Inv s → step s = .next t → Inv t

/-- R34 (c): at most 4194304 identifiers are issued in a window. -/
def Obligations.WindowCountIsBounded : Prop :=
  ∀ s : State, Inv s → s.block.wcount.toNat ≤ 4194304

/-- From a state that meets the invariant, the machine stops at no action the port can express. -/
def Obligations.MachineNeverStops : Prop :=
  ∀ (s : State) (a : HostAction) (rest : List HostAction), Inv s → s.pending = a :: rest → a.wf = true →
    ∃ t, step s = .next t ∧ t.pending = rest

/-! ### Derived properties (44_engine_commands.md R167-R170) -/

/-- R155: the 256 counters of a slot give 256 distinct sequence values, under any checked parameters. -/
def Obligations.SequenceValuesAreDistinct : Prop :=
  ∀ (P : CheckedParams) (b : Block) (c c' : Counter), c.toNat < 256 → c'.toNat < 256 →
    sequenceField P.toParams b c = sequenceField P.toParams b c' → c = c'

/-- R167: within one window every pair of successful issues returns distinct identifiers. -/
def Obligations.IdentifiersDistinctWithinWindow : Prop :=
  ∀ s t u v : State, Issued s t → SameWindow t u → Issued u v → t.block.idReg ≠ v.block.idReg

/-- R168: from a window in which the reachable slots are unused, one fixed message is issued exactly
256 × PROBE_LIMIT times, filling one slot after the other, and every later call fails with
COUNTER_OVERFLOW. The probe limit is at most the number of slots, so that the slots are distinct. -/
def Obligations.SaturationBound : Prop :=
  ∀ (P : CheckedParams) (s : State) (s0 : Slot), P.probeLimit ≤ 16384 → s.block.tsValid = true →
    s.block.msgLen.toNat ≤ P.msgMax →
    s0 = (P.kh64 (messageOperand s.block) s.block.cfgHashKey).extractLsb' 0 14 →
    (∀ p < P.probeLimit, tableGet s.block.table (BitVec.ofNat 14 (s0.toNat + p)) = 0) →
    (∀ n < 256 * P.probeLimit, ∃ t u, repeatExec P .nextIdWithHash n s = some t ∧
      execWith P .nextIdWithHash t = .next u ∧ u.block.err = 0 ∧
      (idHash u.block.idReg).toNat = (s0.toNat + n / 256) % 16384 ∧
      idSequence u.block.idReg = p8 P.toParams (BitVec.ofNat 8 (n % 256) ^^^ s.block.cfgCounterKey)) ∧
    (∀ n, 256 * P.probeLimit ≤ n → ∃ t, repeatExec P .nextIdWithHash n s = some t ∧
      execWith P .nextIdWithHash t = .next { t with block := { t.block with err := 3 } })

/-- R169: two successful refreshes in the same bucket, with no command between them, leave the window as
the first left it; a successful refresh whose bucket differs from the stored one clears it. -/
def Obligations.RefreshIsIdempotent : Prop :=
  ∀ s t : State, exec .updateTime s = .next t → t.block.err = 0 →
    (∀ r u : State, r.block = t.block → exec .updateTime r = .next u → u.block.err = 0 →
      ((timeSample r).toInt - s.block.cfgEpoch.toInt) / 8 =
        ((timeSample s).toInt - s.block.cfgEpoch.toInt) / 8 →
      u.block = t.block) ∧
    (∀ q : BitVec 31, s.block.tsBits = p31 Config.params q →
      (q.toNat : Int) ≠ ((timeSample s).toInt - s.block.cfgEpoch.toInt) / 8 →
      (∀ x, tableGet t.block.table x = 0) ∧ t.block.wcount = 0)

/-- R136, R163, R235: in a running window whose bucket is `q`, a successful refresh in bucket `q'` rolls
the window over exactly if the bucket changed, forwards or backwards. -/
def Obligations.RolloverExactlyOnBucketChange : Prop :=
  ∀ (s t : State) (q q' : BitVec 31), s.block.tsValid = true → s.block.tsBits = p31 Config.params q →
    quantize s.block.cfgEpoch (timeSample s) = .ok q' → exec .updateTime s = .next t →
    (q' = q → t.block = { s.block with err := 0 }) ∧
    (q' ≠ q → t.block = { s.block with err := 0, tsBits := p31 Config.params q', table := [], wcount := 0 } ∧
      t.block.tsBits ≠ s.block.tsBits)

/-- R170: identifiers issued in windows with different buckets differ, whatever else differs. -/
def Obligations.IdentifiersDifferAcrossBuckets : Prop :=
  ∀ (s t s' t' : State) (i i' : Instr) (q q' : BitVec 31),
    (i = .nextId ∨ i = .nextIdWithHash) → (i' = .nextId ∨ i' = .nextIdWithHash) →
    s.block.tsBits = p31 Config.params q → s'.block.tsBits = p31 Config.params q' → q ≠ q' →
    exec i s = .next t → exec i' s' = .next t' → t.block.err = 0 → t'.block.err = 0 →
    t.block.idReg ≠ t'.block.idReg

/-- R170: two blocks that differ only in the counter key issue identifiers that differ in the sequence
field and in no other. -/
def Obligations.CounterKeyChangesSequenceOnly : Prop :=
  ∀ (s t : State) (i : Instr) (key : Byte), (i = .nextId ∨ i = .nextIdWithHash) →
    key ≠ s.block.cfgCounterKey → exec i s = .next t → t.block.err = 0 →
    ∃ t', exec i { s with block := { s.block with cfgCounterKey := key } } = .next t' ∧ t'.block.err = 0 ∧
      idSequence t'.block.idReg ≠ idSequence t.block.idReg ∧ idHash t'.block.idReg = idHash t.block.idReg ∧
      idTimestamp t'.block.idReg = idTimestamp t.block.idReg ∧
      idInstance t'.block.idReg = idInstance t.block.idReg

/-- R236: on this hardware the instance id does not reach the identifier. -/
def Obligations.InstanceIdDoesNotReachIdentifier : Prop :=
  ∀ (s t : State) (i : Instr) (n : BitVec 14), (i = .nextId ∨ i = .nextIdWithHash) → exec i s = .next t →
    exec i { s with block := { s.block with cfgInstanceId := n } } =
      .next { t with block := { t.block with cfgInstanceId := n } } ∧
    (t.block.err = 0 → idInstance t.block.idReg = 0)

/-- R170, R235: a window restarted in a bucket already used repeats identifiers: NEW and NEXT_ID, twice,
with the time port in the same bucket, return the same identifier twice. -/
def Obligations.RevisitedBucketRepeatsIdentifier : Prop :=
  ∀ (s t u v w : State), exec .new s = .next t → exec .nextId t = .next u →
    (∀ r : State, r.block = u.block → exec .new r = .next v → t.block.err = 0 → v.block.err = 0 →
      ((timeSample r).toInt - 1719792000) / 8 = ((timeSample s).toInt - 1719792000) / 8 →
      exec .nextId v = .next w →
      u.block.err = 0 ∧ w.block.err = 0 ∧ w.block.idReg = u.block.idReg)

/-- R24, R27, R37: no read shows the configuration registers or the collision table: two blocks that
differ in nothing else answer every read alike. -/
def Obligations.HiddenStateIsNotReadable : Prop :=
  ∀ (s t : State) (off : Offset) (rest : List HostAction) (n : BitVec 14) (k : Key) (c : Byte) (ep : DWord)
    (tab : CollisionTable),
    s.pending = .read off :: rest → step s = .next t →
    ∃ t', step { s with block := { s.block with
        cfgInstanceId := n, cfgHashKey := k, cfgCounterKey := c, cfgEpoch := ep, table := tab } } = .next t' ∧
      t'.responses = t.responses

/-- R233: in the fresh state with the default key, counter key and epoch, UPDATE_TIME does what NEW does,
but for the instance id, which it keeps. -/
def Obligations.UpdateTimeBootsAsNew : Prop :=
  ∀ s t u : State, s.block.tsValid = false → s.block.cfgHashKey = Config.defaultHashKey →
    s.block.cfgCounterKey = 42 → s.block.cfgEpoch = 1719792000 →
    exec .new s = .next t → exec .updateTime s = .next u →
    u.block = { t.block with cfgInstanceId := s.block.cfgInstanceId }
end

