-- ==== Sys2Proof/Laws/State.lean ====
section
/-! SUPPORT. What each named update of the state leaves in each field, so that no proof unfolds a record
update. -/

namespace Sys2Proof.Machine

/-! ### `setErr` (R201) -/

@[simp] theorem setErr_err (e : ErrCode) (b : Block) :
    (setErr e b).err = errBits e := rfl
@[simp] theorem setErr_tsValid (e : ErrCode) (b : Block) :
    (setErr e b).tsValid = b.tsValid := rfl
@[simp] theorem setErr_tsBits (e : ErrCode) (b : Block) :
    (setErr e b).tsBits = b.tsBits := rfl
@[simp] theorem setErr_table (e : ErrCode) (b : Block) :
    (setErr e b).table = b.table := rfl
@[simp] theorem setErr_wcount (e : ErrCode) (b : Block) :
    (setErr e b).wcount = b.wcount := rfl
@[simp] theorem setErr_idReg (e : ErrCode) (b : Block) :
    (setErr e b).idReg = b.idReg := rfl
@[simp] theorem setErr_cfgInstanceId (e : ErrCode) (b : Block) :
    (setErr e b).cfgInstanceId = b.cfgInstanceId := rfl
@[simp] theorem setErr_cfgHashKey (e : ErrCode) (b : Block) :
    (setErr e b).cfgHashKey = b.cfgHashKey := rfl
@[simp] theorem setErr_cfgCounterKey (e : ErrCode) (b : Block) :
    (setErr e b).cfgCounterKey = b.cfgCounterKey := rfl
@[simp] theorem setErr_cfgEpoch (e : ErrCode) (b : Block) :
    (setErr e b).cfgEpoch = b.cfgEpoch := rfl
@[simp] theorem setErr_argInstance (e : ErrCode) (b : Block) :
    (setErr e b).argInstance = b.argInstance := rfl
@[simp] theorem setErr_argCkey (e : ErrCode) (b : Block) :
    (setErr e b).argCkey = b.argCkey := rfl
@[simp] theorem setErr_argEpochLo (e : ErrCode) (b : Block) :
    (setErr e b).argEpochLo = b.argEpochLo := rfl
@[simp] theorem setErr_argEpochHi (e : ErrCode) (b : Block) :
    (setErr e b).argEpochHi = b.argEpochHi := rfl
@[simp] theorem setErr_argKey0 (e : ErrCode) (b : Block) :
    (setErr e b).argKey0 = b.argKey0 := rfl
@[simp] theorem setErr_argKey1 (e : ErrCode) (b : Block) :
    (setErr e b).argKey1 = b.argKey1 := rfl
@[simp] theorem setErr_argKey2 (e : ErrCode) (b : Block) :
    (setErr e b).argKey2 = b.argKey2 := rfl
@[simp] theorem setErr_argKey3 (e : ErrCode) (b : Block) :
    (setErr e b).argKey3 = b.argKey3 := rfl
@[simp] theorem setErr_msgLen (e : ErrCode) (b : Block) :
    (setErr e b).msgLen = b.msgLen := rfl
@[simp] theorem setErr_msg (e : ErrCode) (b : Block) :
    (setErr e b).msg = b.msg := rfl

/-! ### `startWindow` (R152) -/

@[simp] theorem startWindow_err (t : TimeBits) (b : Block) :
    (startWindow t b).err = b.err := rfl
@[simp] theorem startWindow_tsValid (t : TimeBits) (b : Block) :
    (startWindow t b).tsValid = true := rfl
@[simp] theorem startWindow_tsBits (t : TimeBits) (b : Block) :
    (startWindow t b).tsBits = t := rfl
@[simp] theorem startWindow_table (t : TimeBits) (b : Block) :
    (startWindow t b).table = [] := rfl
@[simp] theorem startWindow_wcount (t : TimeBits) (b : Block) :
    (startWindow t b).wcount = 0 := rfl
@[simp] theorem startWindow_idReg (t : TimeBits) (b : Block) :
    (startWindow t b).idReg = b.idReg := rfl
@[simp] theorem startWindow_cfgInstanceId (t : TimeBits) (b : Block) :
    (startWindow t b).cfgInstanceId = b.cfgInstanceId := rfl
@[simp] theorem startWindow_cfgHashKey (t : TimeBits) (b : Block) :
    (startWindow t b).cfgHashKey = b.cfgHashKey := rfl
@[simp] theorem startWindow_cfgCounterKey (t : TimeBits) (b : Block) :
    (startWindow t b).cfgCounterKey = b.cfgCounterKey := rfl
@[simp] theorem startWindow_cfgEpoch (t : TimeBits) (b : Block) :
    (startWindow t b).cfgEpoch = b.cfgEpoch := rfl
@[simp] theorem startWindow_argInstance (t : TimeBits) (b : Block) :
    (startWindow t b).argInstance = b.argInstance := rfl
@[simp] theorem startWindow_argCkey (t : TimeBits) (b : Block) :
    (startWindow t b).argCkey = b.argCkey := rfl
@[simp] theorem startWindow_argEpochLo (t : TimeBits) (b : Block) :
    (startWindow t b).argEpochLo = b.argEpochLo := rfl
@[simp] theorem startWindow_argEpochHi (t : TimeBits) (b : Block) :
    (startWindow t b).argEpochHi = b.argEpochHi := rfl
@[simp] theorem startWindow_argKey0 (t : TimeBits) (b : Block) :
    (startWindow t b).argKey0 = b.argKey0 := rfl
@[simp] theorem startWindow_argKey1 (t : TimeBits) (b : Block) :
    (startWindow t b).argKey1 = b.argKey1 := rfl
@[simp] theorem startWindow_argKey2 (t : TimeBits) (b : Block) :
    (startWindow t b).argKey2 = b.argKey2 := rfl
@[simp] theorem startWindow_argKey3 (t : TimeBits) (b : Block) :
    (startWindow t b).argKey3 = b.argKey3 := rfl
@[simp] theorem startWindow_msgLen (t : TimeBits) (b : Block) :
    (startWindow t b).msgLen = b.msgLen := rfl
@[simp] theorem startWindow_msg (t : TimeBits) (b : Block) :
    (startWindow t b).msg = b.msg := rfl

/-! ### `configure` (R24) -/

@[simp] theorem configure_err (n : BitVec 14) (k : Key) (c : Byte) (ep : DWord) (b : Block) :
    (configure n k c ep b).err = b.err := rfl
@[simp] theorem configure_tsValid (n : BitVec 14) (k : Key) (c : Byte) (ep : DWord) (b : Block) :
    (configure n k c ep b).tsValid = b.tsValid := rfl
@[simp] theorem configure_tsBits (n : BitVec 14) (k : Key) (c : Byte) (ep : DWord) (b : Block) :
    (configure n k c ep b).tsBits = b.tsBits := rfl
@[simp] theorem configure_table (n : BitVec 14) (k : Key) (c : Byte) (ep : DWord) (b : Block) :
    (configure n k c ep b).table = b.table := rfl
@[simp] theorem configure_wcount (n : BitVec 14) (k : Key) (c : Byte) (ep : DWord) (b : Block) :
    (configure n k c ep b).wcount = b.wcount := rfl
@[simp] theorem configure_idReg (n : BitVec 14) (k : Key) (c : Byte) (ep : DWord) (b : Block) :
    (configure n k c ep b).idReg = b.idReg := rfl
@[simp] theorem configure_cfgInstanceId (n : BitVec 14) (k : Key) (c : Byte) (ep : DWord) (b : Block) :
    (configure n k c ep b).cfgInstanceId = n := rfl
@[simp] theorem configure_cfgHashKey (n : BitVec 14) (k : Key) (c : Byte) (ep : DWord) (b : Block) :
    (configure n k c ep b).cfgHashKey = k := rfl
@[simp] theorem configure_cfgCounterKey (n : BitVec 14) (k : Key) (c : Byte) (ep : DWord) (b : Block) :
    (configure n k c ep b).cfgCounterKey = c := rfl
@[simp] theorem configure_cfgEpoch (n : BitVec 14) (k : Key) (c : Byte) (ep : DWord) (b : Block) :
    (configure n k c ep b).cfgEpoch = ep := rfl
@[simp] theorem configure_argInstance (n : BitVec 14) (k : Key) (c : Byte) (ep : DWord) (b : Block) :
    (configure n k c ep b).argInstance = b.argInstance := rfl
@[simp] theorem configure_argCkey (n : BitVec 14) (k : Key) (c : Byte) (ep : DWord) (b : Block) :
    (configure n k c ep b).argCkey = b.argCkey := rfl
@[simp] theorem configure_argEpochLo (n : BitVec 14) (k : Key) (c : Byte) (ep : DWord) (b : Block) :
    (configure n k c ep b).argEpochLo = b.argEpochLo := rfl
@[simp] theorem configure_argEpochHi (n : BitVec 14) (k : Key) (c : Byte) (ep : DWord) (b : Block) :
    (configure n k c ep b).argEpochHi = b.argEpochHi := rfl
@[simp] theorem configure_argKey0 (n : BitVec 14) (k : Key) (c : Byte) (ep : DWord) (b : Block) :
    (configure n k c ep b).argKey0 = b.argKey0 := rfl
@[simp] theorem configure_argKey1 (n : BitVec 14) (k : Key) (c : Byte) (ep : DWord) (b : Block) :
    (configure n k c ep b).argKey1 = b.argKey1 := rfl
@[simp] theorem configure_argKey2 (n : BitVec 14) (k : Key) (c : Byte) (ep : DWord) (b : Block) :
    (configure n k c ep b).argKey2 = b.argKey2 := rfl
@[simp] theorem configure_argKey3 (n : BitVec 14) (k : Key) (c : Byte) (ep : DWord) (b : Block) :
    (configure n k c ep b).argKey3 = b.argKey3 := rfl
@[simp] theorem configure_msgLen (n : BitVec 14) (k : Key) (c : Byte) (ep : DWord) (b : Block) :
    (configure n k c ep b).msgLen = b.msgLen := rfl
@[simp] theorem configure_msg (n : BitVec 14) (k : Key) (c : Byte) (ep : DWord) (b : Block) :
    (configure n k c ep b).msg = b.msg := rfl

/-! ### `recordIssue` (R153) -/

@[simp] theorem recordIssue_err (P : Params) (s : Slot) (c : Counter) (b : Block) :
    (recordIssue P s c b).err = b.err := rfl
@[simp] theorem recordIssue_tsValid (P : Params) (s : Slot) (c : Counter) (b : Block) :
    (recordIssue P s c b).tsValid = b.tsValid := rfl
@[simp] theorem recordIssue_tsBits (P : Params) (s : Slot) (c : Counter) (b : Block) :
    (recordIssue P s c b).tsBits = b.tsBits := rfl
@[simp] theorem recordIssue_table (P : Params) (s : Slot) (c : Counter) (b : Block) :
    (recordIssue P s c b).table = tableSet b.table s (c + 1) := rfl
@[simp] theorem recordIssue_wcount (P : Params) (s : Slot) (c : Counter) (b : Block) :
    (recordIssue P s c b).wcount = b.wcount + 1 := rfl
@[simp] theorem recordIssue_idReg (P : Params) (s : Slot) (c : Counter) (b : Block) :
    (recordIssue P s c b).idReg = pack (s.setWidth 16) (b.tsBits.setWidth 32) (instanceField P b) (sequenceField P b c) := rfl
@[simp] theorem recordIssue_cfgInstanceId (P : Params) (s : Slot) (c : Counter) (b : Block) :
    (recordIssue P s c b).cfgInstanceId = b.cfgInstanceId := rfl
@[simp] theorem recordIssue_cfgHashKey (P : Params) (s : Slot) (c : Counter) (b : Block) :
    (recordIssue P s c b).cfgHashKey = b.cfgHashKey := rfl
@[simp] theorem recordIssue_cfgCounterKey (P : Params) (s : Slot) (c : Counter) (b : Block) :
    (recordIssue P s c b).cfgCounterKey = b.cfgCounterKey := rfl
@[simp] theorem recordIssue_cfgEpoch (P : Params) (s : Slot) (c : Counter) (b : Block) :
    (recordIssue P s c b).cfgEpoch = b.cfgEpoch := rfl
@[simp] theorem recordIssue_argInstance (P : Params) (s : Slot) (c : Counter) (b : Block) :
    (recordIssue P s c b).argInstance = b.argInstance := rfl
@[simp] theorem recordIssue_argCkey (P : Params) (s : Slot) (c : Counter) (b : Block) :
    (recordIssue P s c b).argCkey = b.argCkey := rfl
@[simp] theorem recordIssue_argEpochLo (P : Params) (s : Slot) (c : Counter) (b : Block) :
    (recordIssue P s c b).argEpochLo = b.argEpochLo := rfl
@[simp] theorem recordIssue_argEpochHi (P : Params) (s : Slot) (c : Counter) (b : Block) :
    (recordIssue P s c b).argEpochHi = b.argEpochHi := rfl
@[simp] theorem recordIssue_argKey0 (P : Params) (s : Slot) (c : Counter) (b : Block) :
    (recordIssue P s c b).argKey0 = b.argKey0 := rfl
@[simp] theorem recordIssue_argKey1 (P : Params) (s : Slot) (c : Counter) (b : Block) :
    (recordIssue P s c b).argKey1 = b.argKey1 := rfl
@[simp] theorem recordIssue_argKey2 (P : Params) (s : Slot) (c : Counter) (b : Block) :
    (recordIssue P s c b).argKey2 = b.argKey2 := rfl
@[simp] theorem recordIssue_argKey3 (P : Params) (s : Slot) (c : Counter) (b : Block) :
    (recordIssue P s c b).argKey3 = b.argKey3 := rfl
@[simp] theorem recordIssue_msgLen (P : Params) (s : Slot) (c : Counter) (b : Block) :
    (recordIssue P s c b).msgLen = b.msgLen := rfl
@[simp] theorem recordIssue_msg (P : Params) (s : Slot) (c : Counter) (b : Block) :
    (recordIssue P s c b).msg = b.msg := rfl

/-! ### `msgWordWrite` (R64) -/

@[simp] theorem msgWordWrite_err (w : Nat) (v : Word) (b : Block) :
    (msgWordWrite w v b).err = b.err := rfl
@[simp] theorem msgWordWrite_tsValid (w : Nat) (v : Word) (b : Block) :
    (msgWordWrite w v b).tsValid = b.tsValid := rfl
@[simp] theorem msgWordWrite_tsBits (w : Nat) (v : Word) (b : Block) :
    (msgWordWrite w v b).tsBits = b.tsBits := rfl
@[simp] theorem msgWordWrite_table (w : Nat) (v : Word) (b : Block) :
    (msgWordWrite w v b).table = b.table := rfl
@[simp] theorem msgWordWrite_wcount (w : Nat) (v : Word) (b : Block) :
    (msgWordWrite w v b).wcount = b.wcount := rfl
@[simp] theorem msgWordWrite_idReg (w : Nat) (v : Word) (b : Block) :
    (msgWordWrite w v b).idReg = b.idReg := rfl
@[simp] theorem msgWordWrite_cfgInstanceId (w : Nat) (v : Word) (b : Block) :
    (msgWordWrite w v b).cfgInstanceId = b.cfgInstanceId := rfl
@[simp] theorem msgWordWrite_cfgHashKey (w : Nat) (v : Word) (b : Block) :
    (msgWordWrite w v b).cfgHashKey = b.cfgHashKey := rfl
@[simp] theorem msgWordWrite_cfgCounterKey (w : Nat) (v : Word) (b : Block) :
    (msgWordWrite w v b).cfgCounterKey = b.cfgCounterKey := rfl
@[simp] theorem msgWordWrite_cfgEpoch (w : Nat) (v : Word) (b : Block) :
    (msgWordWrite w v b).cfgEpoch = b.cfgEpoch := rfl
@[simp] theorem msgWordWrite_argInstance (w : Nat) (v : Word) (b : Block) :
    (msgWordWrite w v b).argInstance = b.argInstance := rfl
@[simp] theorem msgWordWrite_argCkey (w : Nat) (v : Word) (b : Block) :
    (msgWordWrite w v b).argCkey = b.argCkey := rfl
@[simp] theorem msgWordWrite_argEpochLo (w : Nat) (v : Word) (b : Block) :
    (msgWordWrite w v b).argEpochLo = b.argEpochLo := rfl
@[simp] theorem msgWordWrite_argEpochHi (w : Nat) (v : Word) (b : Block) :
    (msgWordWrite w v b).argEpochHi = b.argEpochHi := rfl
@[simp] theorem msgWordWrite_argKey0 (w : Nat) (v : Word) (b : Block) :
    (msgWordWrite w v b).argKey0 = b.argKey0 := rfl
@[simp] theorem msgWordWrite_argKey1 (w : Nat) (v : Word) (b : Block) :
    (msgWordWrite w v b).argKey1 = b.argKey1 := rfl
@[simp] theorem msgWordWrite_argKey2 (w : Nat) (v : Word) (b : Block) :
    (msgWordWrite w v b).argKey2 = b.argKey2 := rfl
@[simp] theorem msgWordWrite_argKey3 (w : Nat) (v : Word) (b : Block) :
    (msgWordWrite w v b).argKey3 = b.argKey3 := rfl
@[simp] theorem msgWordWrite_msgLen (w : Nat) (v : Word) (b : Block) :
    (msgWordWrite w v b).msgLen = b.msgLen := rfl

/-! ### `commit_ok` -/

@[simp] theorem commit_ok_block (s : State) (b : Block) :
    (commit s (.ok b)).block = setErr .ok b := rfl
@[simp] theorem commit_ok_pending (s : State) (b : Block) :
    (commit s (.ok b)).pending = s.pending := rfl
@[simp] theorem commit_ok_responses (s : State) (b : Block) :
    (commit s (.ok b)).responses = s.responses := rfl
@[simp] theorem commit_ok_nextTime (s : State) (b : Block) :
    (commit s (.ok b)).nextTime = s.nextTime := rfl
@[simp] theorem commit_ok_timeDraws (s : State) (b : Block) :
    (commit s (.ok b)).timeDraws = s.timeDraws := rfl

/-! ### `commit_error` -/

@[simp] theorem commit_error_block (s : State) (e : ErrCode) :
    (commit s (.error e)).block = setErr e s.block := rfl
@[simp] theorem commit_error_pending (s : State) (e : ErrCode) :
    (commit s (.error e)).pending = s.pending := rfl
@[simp] theorem commit_error_responses (s : State) (e : ErrCode) :
    (commit s (.error e)).responses = s.responses := rfl
@[simp] theorem commit_error_nextTime (s : State) (e : ErrCode) :
    (commit s (.error e)).nextTime = s.nextTime := rfl
@[simp] theorem commit_error_timeDraws (s : State) (e : ErrCode) :
    (commit s (.error e)).timeDraws = s.timeDraws := rfl

/-! ### `afterSample` -/

@[simp] theorem afterSample_block (s : State) :
    (afterSample s).block = s.block := rfl
@[simp] theorem afterSample_pending (s : State) :
    (afterSample s).pending = s.pending := rfl
@[simp] theorem afterSample_responses (s : State) :
    (afterSample s).responses = s.responses := rfl
@[simp] theorem afterSample_nextTime (s : State) :
    (afterSample s).nextTime = none := rfl
@[simp] theorem afterSample_timeDraws (s : State) :
    (afterSample s).timeDraws = s.timeDraws + 1 := rfl

/-! ### `resetBlock` -/

@[simp] theorem resetBlock_block (P : Params) (s : State) :
    (resetBlock P s).block = Block.resetWith P := rfl
@[simp] theorem resetBlock_pending (P : Params) (s : State) :
    (resetBlock P s).pending = s.pending := rfl
@[simp] theorem resetBlock_responses (P : Params) (s : State) :
    (resetBlock P s).responses = s.responses := rfl
@[simp] theorem resetBlock_nextTime (P : Params) (s : State) :
    (resetBlock P s).nextTime = s.nextTime := rfl
@[simp] theorem resetBlock_timeDraws (P : Params) (s : State) :
    (resetBlock P s).timeDraws = s.timeDraws := rfl

/-! ### `present` -/

@[simp] theorem present_block (prog : List HostAction) (s : State) :
    (present prog s).block = s.block := rfl
@[simp] theorem present_pending (prog : List HostAction) (s : State) :
    (present prog s).pending = prog ++ s.pending := rfl
@[simp] theorem present_responses (prog : List HostAction) (s : State) :
    (present prog s).responses = s.responses := rfl
@[simp] theorem present_nextTime (prog : List HostAction) (s : State) :
    (present prog s).nextTime = s.nextTime := rfl
@[simp] theorem present_timeDraws (prog : List HostAction) (s : State) :
    (present prog s).timeDraws = s.timeDraws := rfl

/-- `commit` touches the block alone. -/
@[simp] theorem commit_pending (s : State) (r : Except ErrCode Block) : (commit s r).pending = s.pending := by
  cases r <;> rfl

/-- `commit` touches the block alone. -/
@[simp] theorem commit_responses (s : State) (r : Except ErrCode Block) :
    (commit s r).responses = s.responses := by
  cases r <;> rfl

/-- `commit` touches the block alone. -/
@[simp] theorem commit_nextTime (s : State) (r : Except ErrCode Block) :
    (commit s r).nextTime = s.nextTime := by
  cases r <;> rfl

/-- `commit` touches the block alone. -/
@[simp] theorem commit_timeDraws (s : State) (r : Except ErrCode Block) :
    (commit s r).timeDraws = s.timeDraws := by
  cases r <;> rfl

/-- The time port shows what a time line said (R96). -/
theorem timeSample_some {s : State} {now : DWord} (h : s.nextTime = some now) : timeSample s = now := by
  simp [timeSample, h]

/-- Without a time line the sample is a free value (R212). -/
theorem timeSample_none {s : State} (h : s.nextTime = none) :
    timeSample s = Config.timeDraw s.timeDraws := by
  simp [timeSample, h]

end Sys2Proof.Machine
end

