-- ==== Sys2Proof/Laws/Sparse.lean ====
section
/-! SUPPORT. The laws of the two indexed stores: a read after a write, on every list; that every write
keeps the canonical form; that stores in canonical form that read alike are equal. -/

namespace Sys2Proof.Machine

variable {w : Nat}

@[simp] theorem sparseGet_nil (a : Nat) : sparseGet ([] : List (Nat × BitVec w)) a = 0#w := rfl

/-- An erased index reads 0. -/
theorem sparseGet_erase_same (m : List (Nat × BitVec w)) (a : Nat) : sparseGet (sparseErase m a) a = 0#w := by
  induction m with
  | nil => rfl
  | cons e rest ih =>
    by_cases h : e.1 = a
    · simpa [sparseErase, h] using ih
    · simpa [sparseErase, h, sparseGet] using ih

/-- Erasing one index leaves the others. -/
theorem sparseGet_erase_other {a b : Nat} (hab : b ≠ a) (m : List (Nat × BitVec w)) :
    sparseGet (sparseErase m a) b = sparseGet m b := by
  induction m with
  | nil => rfl
  | cons e rest ih =>
    by_cases h : e.1 = a
    · have hne : e.1 ≠ b := fun hb => hab (hb ▸ h)
      simpa [sparseErase, h, sparseGet, hne, Ne.symm hab] using ih
    · by_cases hb : e.1 = b
      · simp [sparseErase, sparseGet, hb, hab]
      · simpa [sparseErase, h, sparseGet, hb] using ih

/-- An inserted entry is found, if no entry of its index stood before it. -/
theorem sparseGet_insert_same (a : Nat) (v : BitVec w) (m : List (Nat × BitVec w))
    (h : ∀ e ∈ m, e.1 ≠ a) : sparseGet (sparseInsert a v m) a = v := by
  induction m with
  | nil => simp [sparseInsert, sparseGet]
  | cons e rest ih =>
    have he : e.1 ≠ a := h e (by simp)
    by_cases hlt : a < e.1
    · simp [sparseInsert, hlt, sparseGet]
    · simpa [sparseInsert, hlt, sparseGet, he] using ih (fun x hx => h x (by simp [hx]))

/-- Inserting at one index leaves the others. -/
theorem sparseGet_insert_other {a b : Nat} (hab : b ≠ a) (v : BitVec w) (m : List (Nat × BitVec w)) :
    sparseGet (sparseInsert a v m) b = sparseGet m b := by
  induction m with
  | nil => simp [sparseInsert, sparseGet, Ne.symm hab]
  | cons e rest ih =>
    by_cases hlt : a < e.1
    · simp [sparseInsert, hlt, sparseGet, Ne.symm hab]
    · simp [sparseInsert, hlt, sparseGet, ih]

/-- No entry of an erased index is left. -/
theorem ne_of_mem_sparseErase {m : List (Nat × BitVec w)} {a : Nat} {e : Nat × BitVec w}
    (h : e ∈ sparseErase m a) : e.1 ≠ a := by
  simpa using (List.mem_filter.mp h).2

/-- Read after write, on every list. -/
theorem sparseGet_set (m : List (Nat × BitVec w)) (a b : Nat) (v : BitVec w) :
    sparseGet (sparseSet m a v) b = if b = a then v else sparseGet m b := by
  by_cases hv : v = 0#w
  · by_cases hb : b = a
    · subst hb; simp [sparseSet, hv, sparseGet_erase_same]
    · simp [sparseSet, hv, hb, sparseGet_erase_other hb]
  · by_cases hb : b = a
    · subst hb
      simp [sparseSet, hv, sparseGet_insert_same b v _ (fun _ => ne_of_mem_sparseErase)]
    · simp [sparseSet, hv, hb, sparseGet_insert_other hb, sparseGet_erase_other hb]

/-- Read after write of the collision table (R11). -/
@[simp] theorem tableGet_tableSet (t : CollisionTable) (s s' : Slot) (c : Counter) :
    tableGet (tableSet t s c) s' = if s' = s then c else tableGet t s' := by
  simp [tableGet, tableSet, sparseGet_set, BitVec.toNat_inj]

/-- The cleared table reads 0 in every slot (R152). -/
@[simp] theorem tableGet_nil (s : Slot) : tableGet [] s = 0 := rfl

/-- The canonical form as a proposition. -/
theorem sparseWf_cons {bound a : Nat} {v : BitVec w} {rest : List (Nat × BitVec w)} :
    sparseWf bound ((a, v) :: rest) = true ↔
      a < bound ∧ v ≠ 0#w ∧ (∀ e ∈ rest, a < e.1) ∧ sparseWf bound rest = true := by
  simp [sparseWf, and_assoc]

/-- An index below every entry reads 0. -/
theorem sparseGet_of_lt {m : List (Nat × BitVec w)} {a : Nat} (h : ∀ e ∈ m, a < e.1) : sparseGet m a = 0#w := by
  induction m with
  | nil => rfl
  | cons e rest ih =>
    have : e.1 ≠ a := Nat.ne_of_gt (h e (by simp))
    simpa [sparseGet, this] using ih (fun x hx => h x (by simp [hx]))

/-- An index at or above the bound reads 0. -/
theorem sparseGet_of_bound_le {bound : Nat} {m : List (Nat × BitVec w)} (h : sparseWf bound m = true) {a : Nat}
    (ha : bound ≤ a) : sparseGet m a = 0#w := by
  induction m with
  | nil => rfl
  | cons e rest ih =>
    obtain ⟨b, v⟩ := e
    obtain ⟨hb, -, -, hr⟩ := sparseWf_cons.mp h
    have : b ≠ a := by omega
    simpa [sparseGet, this] using ih hr

/-- Erasing keeps the canonical form. -/
theorem sparseWf_erase {bound : Nat} {m : List (Nat × BitVec w)} (h : sparseWf bound m = true) (a : Nat) :
    sparseWf bound (sparseErase m a) = true := by
  induction m with
  | nil => rfl
  | cons e rest ih =>
    obtain ⟨b, v⟩ := e
    obtain ⟨hb, hv, hlt, hr⟩ := sparseWf_cons.mp h
    by_cases hba : b = a
    · simpa [sparseErase, hba] using ih hr
    · have : sparseErase ((b, v) :: rest) a = (b, v) :: sparseErase rest a := by
        simp [sparseErase, hba]
      rw [this, sparseWf_cons]
      exact ⟨hb, hv, fun x hx => hlt x (List.mem_filter.mp hx).1, ih hr⟩

/-- What an insertion adds. -/
theorem mem_sparseInsert {a : Nat} {v : BitVec w} {m : List (Nat × BitVec w)} {e : Nat × BitVec w}
    (h : e ∈ sparseInsert a v m) : e = (a, v) ∨ e ∈ m := by
  induction m with
  | nil => simpa [sparseInsert] using h
  | cons x rest ih =>
    by_cases hlt : a < x.1
    · simpa [sparseInsert, hlt] using h
    · rw [sparseInsert, if_neg hlt, List.mem_cons] at h
      rcases h with rfl | h
      · simp
      · rcases ih h with h | h <;> simp [h]

/-- Inserting a value that is not 0 at a free index keeps the canonical form. -/
theorem sparseWf_insert {bound a : Nat} {v : BitVec w} {m : List (Nat × BitVec w)}
    (h : sparseWf bound m = true) (ha : a < bound) (hv : v ≠ 0#w) (hfree : ∀ e ∈ m, e.1 ≠ a) :
    sparseWf bound (sparseInsert a v m) = true := by
  induction m with
  | nil => simp [sparseInsert, sparseWf, ha, hv]
  | cons e rest ih =>
    obtain ⟨b, u⟩ := e
    obtain ⟨hb, hu, hlt, hr⟩ := sparseWf_cons.mp h
    by_cases hab : a < b
    · rw [sparseInsert, if_pos hab, sparseWf_cons]
      refine ⟨ha, hv, fun x hx => ?_, h⟩
      rcases List.mem_cons.mp hx with rfl | hx
      · exact hab
      · exact lt_trans hab (hlt x hx)
    · have hba : b < a := by
        have : b ≠ a := hfree (b, u) (by simp)
        omega
      rw [sparseInsert, if_neg hab, sparseWf_cons]
      refine ⟨hb, hu, fun x hx => ?_, ih hr (fun x hx => hfree x (by simp [hx]))⟩
      rcases mem_sparseInsert hx with rfl | hx
      · exact hba
      · exact hlt x hx

/-- Every write keeps the canonical form. -/
theorem sparseWf_set {bound a : Nat} {m : List (Nat × BitVec w)} (h : sparseWf bound m = true) (ha : a < bound)
    (v : BitVec w) : sparseWf bound (sparseSet m a v) = true := by
  by_cases hv : v = 0#w
  · simpa [sparseSet, hv] using sparseWf_erase h a
  · simpa [sparseSet, hv] using
      sparseWf_insert (sparseWf_erase h a) ha hv (fun _ => ne_of_mem_sparseErase)

/-- Writing the collision table keeps its canonical form. -/
theorem tableWf_set {t : CollisionTable} (h : CollisionTable.wf t = true) (s : Slot) (c : Counter) :
    CollisionTable.wf (tableSet t s c) = true :=
  sparseWf_set h s.isLt c

/-- Writing a word of the message buffer keeps its canonical form. -/
theorem memoryWf_msgWordWrite {msgMax : Nat} {b : Block} (h : Memory.wf msgMax b.msg = true) {i : Nat}
    (hi : 4 * i + 3 < msgMax) (v : Word) : Memory.wf msgMax (msgWordWrite i v b).msg = true :=
  sparseWf_set (sparseWf_set (sparseWf_set (sparseWf_set h (by omega) _) (by omega) _) (by omega) _) hi _

/-- A byte of the message buffer after a write of a word (R64). -/
theorem msgByte_msgWordWrite (i : Nat) (v : Word) (b : Block) (a : Nat) :
    msgByte (msgWordWrite i v b) a =
      if a = 4 * i + 3 then byteLane v 3 else if a = 4 * i + 2 then byteLane v 2
      else if a = 4 * i + 1 then byteLane v 1 else if a = 4 * i then byteLane v 0 else msgByte b a := by
  simp only [msgByte, msgWordWrite, sparseGet_set]

/-- Two stores in canonical form that read alike are the same data. -/
theorem sparse_ext {bound : Nat} {m n : List (Nat × BitVec w)} (hm : sparseWf bound m = true)
    (hn : sparseWf bound n = true) (h : ∀ a, sparseGet m a = sparseGet n a) : m = n := by
  induction m generalizing n with
  | nil =>
    cases n with
    | nil => rfl
    | cons e rest =>
      obtain ⟨b, u⟩ := e
      obtain ⟨-, hu, -, -⟩ := sparseWf_cons.mp hn
      have hb := h b
      simp only [sparseGet, if_true] at hb
      exact absurd hb.symm hu
  | cons e rest ih =>
    obtain ⟨a, v⟩ := e
    obtain ⟨-, hv, hlt, hr⟩ := sparseWf_cons.mp hm
    cases n with
    | nil =>
      have ha := h a
      simp only [sparseGet, if_true] at ha
      exact absurd ha hv
    | cons e' rest' =>
      obtain ⟨b, u⟩ := e'
      obtain ⟨-, hu, hlt', hr'⟩ := sparseWf_cons.mp hn
      have hab : a = b := by
        rcases Nat.lt_trichotomy a b with hab | hab | hab
        · have ha := h a
          rw [sparseGet_of_lt (m := (b, u) :: rest') (a := a)] at ha
          · simp only [sparseGet, if_true] at ha
            exact absurd ha hv
          · intro x hx
            rcases List.mem_cons.mp hx with rfl | hx
            · exact hab
            · exact lt_trans hab (hlt' x hx)
        · exact hab
        · have hb := h b
          rw [sparseGet_of_lt (m := (a, v) :: rest) (a := b)] at hb
          · simp only [sparseGet, if_true] at hb
            exact absurd hb.symm hu
          · intro x hx
            rcases List.mem_cons.mp hx with rfl | hx
            · exact hab
            · exact lt_trans hab (hlt x hx)
      subst hab
      have hvu : v = u := by simpa [sparseGet] using h a
      subst hvu
      congr 1
      refine ih hr hr' (fun x => ?_)
      by_cases hx : a = x
      · subst hx
        rw [sparseGet_of_lt hlt, sparseGet_of_lt hlt']
      · simpa [sparseGet, hx] using h x

/-- After reset the message buffer is in canonical form (R36). -/
theorem memoryWf_reset (P : Params) : Memory.wf P.msgMax (Block.resetWith P).msg = true := rfl

/-- After reset the collision table is in canonical form (R36). -/
theorem tableWf_reset (P : Params) : CollisionTable.wf (Block.resetWith P).table = true := rfl

end Sys2Proof.Machine
end

