-- ==== Sys2Proof/Laws/Bus.lean ====
section
/-! SUPPORT. The register map read backwards (20_memory.md R62), and the byte lanes (R65-R68). -/

namespace Sys2Proof.Machine

/-- What the map names stands in it. -/
theorem mem_of_findReg {l : List (Nat × Reg)} {n : Nat} {r : Reg} (h : findReg l n = some r) : (n, r) ∈ l := by
  induction l with
  | nil => cases h
  | cons e rest ih =>
    obtain ⟨o, q⟩ := e
    by_cases hn : n = o
    · simp only [findReg, hn, if_true, Option.some.injEq] at h
      simp [hn, h]
    · simp only [findReg, hn, if_false] at h
      exact List.mem_cons_of_mem _ (ih h)

/-- An offset the map does not name is found in no row. -/
theorem findReg_eq_none {l : List (Nat × Reg)} {n : Nat} (h : ∀ e ∈ l, e.1 ≠ n) : findReg l n = none := by
  induction l with
  | nil => rfl
  | cons e rest ih =>
    obtain ⟨o, q⟩ := e
    have hn : n ≠ o := fun he => h (o, q) (by simp) he.symm
    simp only [findReg, hn, if_false]
    exact ih fun x hx => h x (by simp [hx])

/-- An offset that no named register has is a message word or reserved (R62). -/
theorem regAt_unnamed {msgMax : Nat} {off : Offset} (h : ∀ e ∈ regMap, e.1 ≠ off.toNat) :
    regAt msgMax off =
      if 0x100 ≤ off.toNat ∧ off.toNat < 0x100 + msgMax then .msgWord ((off.toNat - 0x100) / 4)
      else .reserved := by
  simp [regAt, findReg_eq_none h]

/-- CMD is the register at offset 0 and at no other (R62). -/
theorem regAt_eq_cmd {msgMax : Nat} {off : Offset} : regAt msgMax off = .cmd ↔ off = 0#12 := by
  constructor
  · intro h
    apply BitVec.eq_of_toNat_eq
    simp only [regAt] at h
    split at h
    · have hm := mem_of_findReg ‹_›
      subst h
      simpa [regMap] using hm
    · split at h <;> cases h
  · rintro rfl
    rfl

/-- A named register stands at its offset (R62, R96). -/
theorem regAt_offsetOf {r : Reg} (h : ∀ w, r = .msgWord w → w < 64) : regAt 256 (offsetOf r) = r := by
  cases r with
  | msgWord w =>
    have hw := h w rfl
    have hn : (BitVec.ofNat 12 (0x100 + 4 * w)).toNat = 0x100 + 4 * w := by
      rw [BitVec.toNat_ofNat]; omega
    rw [offsetOf, regAt_unnamed, hn, if_pos (by omega)]
    · congr 1
      omega
    · rw [hn]
      simp only [regMap, List.mem_cons, List.not_mem_nil, or_false]
      rintro e (rfl | rfl | rfl | rfl | rfl | rfl | rfl | rfl | rfl | rfl | rfl | rfl | rfl | rfl | rfl | rfl) <;>
        simp only [] <;> omega
  | _ => rfl

/-- The reserved offsets of this hardware (R62). -/
theorem regAt_reserved {off : Offset}
    (h : off.toNat = 0x01C ∨ (0x044 ≤ off.toNat ∧ off.toNat ≤ 0x0FF) ∨ 0x200 ≤ off.toNat) :
    regAt 256 off = .reserved := by
  rw [regAt_unnamed, if_neg (by omega)]
  simp only [regMap, List.mem_cons, List.not_mem_nil, or_false]
  rintro e (rfl | rfl | rfl | rfl | rfl | rfl | rfl | rfl | rfl | rfl | rfl | rfl | rfl | rfl | rfl | rfl) <;>
    simp only [] <;> omega

/-- The message words of this hardware lie inside the buffer (R62). -/
theorem lt_of_regAt_msgWord {off : Offset} {w : Nat} (h : regAt 256 off = .msgWord w) : 4 * w + 3 < 256 := by
  simp only [regAt] at h
  split at h
  · have hm := mem_of_findReg ‹_›
    subst h
    simp [regMap] at hm
  · split at h
    · injection h with h
      omega
    · cases h

/-- Lane `j` of a word is its `j`-th byte from the low end (R66). -/
theorem byteLane_eq (v : Word) (j : Nat) : byteLane v j = BitVec.ofNat 8 (v.toNat / 2 ^ (8 * j)) := by
  apply BitVec.eq_of_toNat_eq
  simp [byteLane, Nat.shiftRight_eq_div_pow]

/-- The number whose base-256 digits are the lanes (R66). -/
theorem wordOfLanes_toNat (b0 b1 b2 b3 : Byte) :
    (wordOfLanes b0 b1 b2 b3).toNat =
      b0.toNat + 2 ^ 8 * b1.toNat + 2 ^ 16 * b2.toNat + 2 ^ 24 * b3.toNat := by
  have h0 := b0.isLt
  have h1 := b1.isLt
  have h2 := b2.isLt
  simp only [wordOfLanes, BitVec.toNat_append, Nat.shiftLeft_eq]
  rw [Nat.mul_comm b3.toNat, ← Nat.two_pow_add_eq_or_of_lt h2,
    Nat.mul_comm (2 ^ 8 * b3.toNat + b2.toNat), ← Nat.two_pow_add_eq_or_of_lt h1,
    Nat.mul_comm (2 ^ 8 * (2 ^ 8 * b3.toNat + b2.toNat) + b1.toNat), ← Nat.two_pow_add_eq_or_of_lt h0]
  omega

/-- Taking the lanes of a word made of lanes gives them back (R66). -/
theorem byteLane_wordOfLanes (b0 b1 b2 b3 : Byte) :
    byteLane (wordOfLanes b0 b1 b2 b3) 0 = b0 ∧ byteLane (wordOfLanes b0 b1 b2 b3) 1 = b1 ∧
    byteLane (wordOfLanes b0 b1 b2 b3) 2 = b2 ∧ byteLane (wordOfLanes b0 b1 b2 b3) 3 = b3 := by
  have h0 := b0.isLt
  have h1 := b1.isLt
  have h2 := b2.isLt
  have h3 := b3.isLt
  simp only [byteLane_eq, wordOfLanes_toNat]
  refine ⟨?_, ?_, ?_, ?_⟩ <;> (apply BitVec.eq_of_toNat_eq; rw [BitVec.toNat_ofNat]; omega)

/-- The two words of a 64-bit quantity make it up (R65). -/
theorem highWord_append_lowWord (v : DWord) : highWord v ++ lowWord v = v := by
  apply BitVec.eq_of_toNat_eq
  have h := v.isLt
  have hl : (lowWord v).toNat = v.toNat % 2 ^ 32 := by simp [lowWord]
  have hh : (highWord v).toNat = v.toNat / 2 ^ 32 := by
    simp [highWord, Nat.shiftRight_eq_div_pow]
    omega
  have hlt : (lowWord v).toNat < 2 ^ 32 := (lowWord v).isLt
  rw [BitVec.toNat_append, Nat.shiftLeft_eq, Nat.mul_comm, ← Nat.two_pow_add_eq_or_of_lt hlt]
  omega

/-- The bytes of the hash input of NEXT_ID, most significant first (R68). -/
theorem be8_eq (v : DWord) :
    be8 v = (List.range 8).map fun k => BitVec.ofNat 8 (v.toNat / 2 ^ (8 * (7 - k))) := by
  have h : ∀ a, v.extractLsb' a 8 = BitVec.ofNat 8 (v.toNat / 2 ^ a) := by
    intro a
    apply BitVec.eq_of_toNat_eq
    simp [Nat.shiftRight_eq_div_pow]
  simp only [be8, h]
  rfl

/-- A write that is no command leaves everything but the argument registers and the message buffer
(R64). -/
theorem writeReg_frame (v : Word) (b : Block) (r : Reg) :
    writeReg v b r = { b with
      argInstance := (writeReg v b r).argInstance, argCkey := (writeReg v b r).argCkey,
      argEpochLo := (writeReg v b r).argEpochLo, argEpochHi := (writeReg v b r).argEpochHi,
      argKey0 := (writeReg v b r).argKey0, argKey1 := (writeReg v b r).argKey1,
      argKey2 := (writeReg v b r).argKey2, argKey3 := (writeReg v b r).argKey3,
      msgLen := (writeReg v b r).msgLen, msg := (writeReg v b r).msg } := by
  cases r <;> rfl

/-- A write keeps the message buffer in canonical form. -/
theorem memoryWf_writeReg {b : Block} (h : Memory.wf 256 b.msg = true) (v : Word) (off : Offset) :
    Memory.wf 256 (writeReg v b (regAt 256 off)).msg = true := by
  cases hr : regAt 256 off with
  | msgWord w => exact memoryWf_msgWordWrite h (lt_of_regAt_msgWord hr) v
  | _ => exact h

end Sys2Proof.Machine
end

