-- ==== Sys2Proof/Laws/Config.lean ====
section
/-! SUPPORT. What this hardware's parameters are (00_scope.md R7), one lemma per parameter. -/

namespace Sys2Proof.Config

@[simp] theorem hardware_toParams : hardware.toParams = params := rfl
@[simp] theorem params_kh64 : params.kh64 = kh64 := rfl
@[simp] theorem params_perm31 : params.perm31 = tableOf perm31Map := rfl
@[simp] theorem params_perm8 : params.perm8 = tableOf perm8Map := rfl
@[simp] theorem params_defaultHashKey : params.defaultHashKey = defaultHashKey := rfl
@[simp] theorem params_probeLimit : params.probeLimit = 10 := rfl
@[simp] theorem params_packInstance : params.packInstance = false := rfl
@[simp] theorem params_msgMax : params.msgMax = 256 := rfl
@[simp] theorem params_defaultCounterKey : params.defaultCounterKey = 42#8 := rfl
@[simp] theorem params_defaultEpoch : params.defaultEpoch = 1719792000#64 := rfl
@[simp] theorem params_defaultInstanceId : params.defaultInstanceId = 0#14 := rfl

end Sys2Proof.Config
end

