-- ==== Sys2Proof/Laws/Ops.lean ====
section
/-! SUPPORT. What each shared operation can do, said once: the probe loop, the issue, the window
timestamp. -/

namespace Sys2Proof.Machine

/-- The `p`-th slot of a probe sequence, `(s + p) mod 16384` (R154). -/
def slotAt (s : Slot) (p : Nat) : Slot := s + BitVec.ofNat 14 p

@[simp] theorem slotAt_zero (s : Slot) : slotAt s 0 = s := by simp [slotAt]

/-- The slot after the next one is the next slot of the slot after. -/
theorem slotAt_succ (s : Slot) (p : Nat) : slotAt s (p + 1) = slotAt (s + 1) p := by
  simp only [slotAt, BitVec.add_assoc]
  congr 1
  apply BitVec.eq_of_toNat_eq
  simp [BitVec.toNat_add, Nat.add_comm]

/-- The slot advance wraps from 16383 to 0 (R154). -/
theorem slotAt_toNat (s : Slot) (p : Nat) : (slotAt s p).toNat = (s.toNat + p) % 16384 := by
  simp [slotAt, BitVec.toNat_add]

/-- What the probe loop ends in says which slots hold 256 (R153). -/
theorem probe_cases (t : CollisionTable) (n : Nat) (s : Slot) :
    (∃ j, j < n ∧ (∀ p < j, tableGet t (slotAt s p) = 256#9) ∧ (tableGet t (slotAt s j)).toNat < 256 ∧
      probe t n s = .found (slotAt s j) (tableGet t (slotAt s j))) ∨
    ((∀ p < n, tableGet t (slotAt s p) = 256#9) ∧ probe t n s = .exhausted) ∨
    (∃ j, j < n ∧ (∀ p < j, tableGet t (slotAt s p) = 256#9) ∧ 256 < (tableGet t (slotAt s j)).toNat ∧
      probe t n s = .corrupt (slotAt s j)) := by
  induction n generalizing s with
  | zero => exact .inr (.inl ⟨by simp, rfl⟩)
  | succ n ih =>
    by_cases h256 : tableGet t s = 256#9
    · have hp : probe t (n + 1) s = probe t n (s + 1) := by simp [probe, h256]
      have hall : ∀ j, (∀ p < j, tableGet t (slotAt (s + 1) p) = 256#9) →
          ∀ p < j + 1, tableGet t (slotAt s p) = 256#9 := by
        intro j hj p hlt
        cases p with
        | zero => simpa using h256
        | succ p => rw [slotAt_succ]; exact hj p (by omega)
      rw [hp]
      rcases ih (s + 1) with ⟨j, hj, hb, hc, he⟩ | ⟨hb, he⟩ | ⟨j, hj, hb, hc, he⟩
      · exact .inl ⟨j + 1, by omega, hall j hb, by rw [slotAt_succ]; exact hc, by rw [slotAt_succ]; exact he⟩
      · exact .inr (.inl ⟨hall n hb, he⟩)
      · exact .inr (.inr ⟨j + 1, by omega, hall j hb, by rw [slotAt_succ]; exact hc, by rw [slotAt_succ]; exact he⟩)
    · by_cases hgt : 256 < (tableGet t s).toNat
      · refine .inr (.inr ⟨0, by omega, by simp, by simpa using hgt, ?_⟩)
        simp [probe, h256, hgt]
      · have hne : (tableGet t s).toNat ≠ 256 := fun h => h256 (BitVec.eq_of_toNat_eq (by simpa using h))
        refine .inl ⟨0, by omega, by simp, by simp; omega, ?_⟩
        simp [probe, h256, hgt]

/-- The probe loop finds the first slot that does not hold 256, if its counter is legal (R153). -/
theorem probe_found {t : CollisionTable} {s : Slot} {n j : Nat} (hj : j < n)
    (hbefore : ∀ p < j, tableGet t (slotAt s p) = 256#9) (hc : (tableGet t (slotAt s j)).toNat < 256) :
    probe t n s = .found (slotAt s j) (tableGet t (slotAt s j)) := by
  have hne : ∀ {x : Counter}, x = 256#9 → ¬ x.toNat < 256 := by rintro _ rfl; decide
  rcases probe_cases t n s with ⟨k, hk, hb, hck, he⟩ | ⟨hb, -⟩ | ⟨k, hk, hb, hck, he⟩
  · have : k = j := by
      rcases Nat.lt_trichotomy k j with h | h | h
      · exact absurd hck (hne (hbefore k h))
      · exact h
      · exact absurd hc (hne (hb j h))
    rw [he, this]
  · exact absurd hc (hne (hb j hj))
  · rcases Nat.lt_trichotomy k j with h | h | h
    · have := hbefore k h
      rw [this] at hck
      exact absurd hck (by decide)
    · subst h; omega
    · exact absurd hc (hne (hb j h))

/-- The probe loop fails when every probed slot holds 256 (R157). -/
theorem probe_exhausted {t : CollisionTable} {s : Slot} {n : Nat}
    (h : ∀ p < n, tableGet t (slotAt s p) = 256#9) : probe t n s = .exhausted := by
  rcases probe_cases t n s with ⟨j, hj, -, hc, -⟩ | ⟨-, he⟩ | ⟨j, hj, -, hc, -⟩
  · rw [h j hj] at hc; exact absurd hc (by decide)
  · exact he
  · rw [h j hj] at hc; exact absurd hc (by decide)

/-- Everything an issue can do (R153, R157). -/
theorem issue_cases (P : Params) (m : List Byte) (s : State) :
    (∃ j, j < P.probeLimit ∧
      (∀ p < j, tableGet s.block.table (slotAt (slotHash P m s.block.cfgHashKey) p) = 256#9) ∧
      (tableGet s.block.table (slotAt (slotHash P m s.block.cfgHashKey) j)).toNat < 256 ∧
      issue P m s = .next (commit s (.ok (recordIssue P (slotAt (slotHash P m s.block.cfgHashKey) j)
        (tableGet s.block.table (slotAt (slotHash P m s.block.cfgHashKey) j)) s.block)))) ∨
    ((∀ p < P.probeLimit, tableGet s.block.table (slotAt (slotHash P m s.block.cfgHashKey) p) = 256#9) ∧
      issue P m s = .next (commit s (.error .counterOverflow))) ∨
    (∃ slot, 256 < (tableGet s.block.table slot).toNat ∧ issue P m s = .fault (.counterOutOfRange slot)) := by
  rcases probe_cases s.block.table P.probeLimit (slotHash P m s.block.cfgHashKey) with
    ⟨j, hj, hb, hc, he⟩ | ⟨hb, he⟩ | ⟨j, hj, hb, hc, he⟩
  · exact .inl ⟨j, hj, hb, hc, by simp [issue, he]⟩
  · exact .inr (.inl ⟨hb, by simp [issue, he]⟩)
  · exact .inr (.inr ⟨_, hc, by simp [issue, he]⟩)

/-- A command that commits leaves ERR at OK (R150). -/
theorem commit_ok_err (s : State) (b : Block) : (commit s (.ok b)).block.err = 0#4 := rfl

/-- A failing command leaves its code in ERR and nothing else (R201). -/
theorem commit_error_block_eq (s : State) (e : ErrCode) :
    (commit s (.error e)).block = { s.block with err := errBits e } := rfl

/-- The window timestamp is the permuted bucket of an accepted time (R151). -/
theorem timeBits_of_quantize {P : Params} {ep now : DWord} {q : BitVec 31} (h : quantize ep now = .ok q) :
    timeBits P ep now = .ok (p31 P q) := by
  simp [timeBits, h]

/-- A refused time is refused with the quantizer's code (R151). -/
theorem timeBits_of_error {P : Params} {ep now : DWord} {e : ErrCode} (h : quantize ep now = .error e) :
    timeBits P ep now = .error e := by
  simp [timeBits, h]

/-- The quantizer refuses with the two time errors only (R140). -/
theorem quantize_error {ep now : DWord} {e : ErrCode} (h : quantize ep now = .error e) :
    e = .epochInFuture ∨ e = .timestampOverflow := by
  simp only [quantize] at h
  split at h
  · exact .inl (by simpa using h.symm)
  · split at h
    · exact .inr (by simpa using h.symm)
    · simp at h

/-- So does the window timestamp (R151). -/
theorem timeBits_error {P : Params} {ep now : DWord} {e : ErrCode} (h : timeBits P ep now = .error e) :
    e = .epochInFuture ∨ e = .timestampOverflow := by
  cases hq : quantize ep now with
  | ok q => simp [timeBits, hq] at h
  | error e' =>
    simp only [timeBits, hq, Except.error.injEq] at h
    exact h ▸ quantize_error hq

end Sys2Proof.Machine
end

