-- ==== Sys2Proof/Laws/Exec.lean ====
section
/-! SUPPORT. Everything a command that answers a next state can have done, said once; that a command
stops only on a counter no run produces; that `exec` and `step` are the parametric machine at this
hardware's parameters. -/

namespace Sys2Proof.Machine

/-- What a command can have done (44_engine_commands.md R150-R165). -/
inductive CommandEffect : Instr → State → State → Prop where
  /-- It failed: ERR alone changes in the block; the time port may have been sampled (R201). -/
  | failed {i : Instr} {s s' : State} {e : ErrCode} (he : e ≠ .ok) (hs : s' = s ∨ s' = afterSample s) :
      CommandEffect i s (commit s' (.error e))
  /-- NEW opened a window with the default configuration (R160). -/
  | newWindow {s : State} {t : TimeBits}
      (ht : timeBits Config.params 1719792000#64 (timeSample s) = .ok t) :
      CommandEffect .new s (commit (afterSample s)
        (.ok (startWindow t (configure 0#14 Config.defaultHashKey 42#8 1719792000#64 s.block))))
  /-- CUSTOM opened a window with the argument configuration (R161). -/
  | customWindow {s : State} {t : TimeBits} (hi : s.block.argInstance.toNat ≤ 16383)
      (ht : timeBits Config.params (epochOperand s.block) (timeSample s) = .ok t) :
      CommandEffect .custom s (commit (afterSample s)
        (.ok (startWindow t (configure (instanceOperand s.block) (keyOperand s.block)
          (counterKeyOperand s.block) (epochOperand s.block) s.block))))
  /-- SET_INSTANCE_ID stored the instance id (R162). -/
  | instanceSet {s : State} (hi : s.block.argInstance.toNat ≤ 16383) :
      CommandEffect .setInstanceId s
        (commit s (.ok { s.block with cfgInstanceId := instanceOperand s.block }))
  /-- UPDATE_TIME rolled the window over (R163). -/
  | rolledOver {s : State} {t : TimeBits}
      (ht : timeBits Config.params s.block.cfgEpoch (timeSample s) = .ok t)
      (hw : s.block.tsValid = false ∨ t ≠ s.block.tsBits) :
      CommandEffect .updateTime s (commit (afterSample s) (.ok (startWindow t s.block)))
  /-- UPDATE_TIME found the bucket unchanged (R163). -/
  | sameBucket {s : State} (hv : s.block.tsValid = true)
      (ht : timeBits Config.params s.block.cfgEpoch (timeSample s) = .ok s.block.tsBits) :
      CommandEffect .updateTime s (commit (afterSample s) (.ok s.block))
  /-- An issuing command issued an identifier (R153). -/
  | issued {i : Instr} {s : State} {slot : Slot} (hi : i = .nextId ∨ i = .nextIdWithHash)
      (hv : s.block.tsValid = true) (hc : (tableGet s.block.table slot).toNat < 256) :
      CommandEffect i s
        (commit s (.ok (recordIssue Config.params slot (tableGet s.block.table slot) s.block)))

/-- The commands that construct end in a next state (R160). -/
theorem execNew_effect (s : State) : ∃ t, execNew s = .next t ∧ CommandEffect .new s t := by
  refine ⟨_, rfl, ?_⟩
  cases h : timeBits Config.params 1719792000#64 (timeSample s) with
  | ok t =>
    have := CommandEffect.newWindow h
    simpa [h] using this
  | error e =>
    have he : e ≠ .ok := by rcases timeBits_error h with rfl | rfl <;> decide
    have := CommandEffect.failed (i := .new) (s := s) he (.inr rfl)
    simpa [h] using this

/-- CUSTOM ends in a next state (R161). -/
theorem execCustom_effect (s : State) : ∃ t, execCustom s = .next t ∧ CommandEffect .custom s t := by
  by_cases hi : s.block.argInstance.toNat ≤ 16383
  · have hn : instanceTooHigh s.block = false := by simpa [instanceTooHigh] using hi
    refine ⟨_, by simp only [execCustom, execCustomWith, hn]; rfl, ?_⟩
    cases h : timeBits Config.params (epochOperand s.block) (timeSample s) with
    | ok t =>
      have := CommandEffect.customWindow hi h
      simpa [h] using this
    | error e =>
      have he : e ≠ .ok := by rcases timeBits_error h with rfl | rfl <;> decide
      have := CommandEffect.failed (i := .custom) (s := s) he (.inr rfl)
      simpa [h] using this
  · have hn : instanceTooHigh s.block = true := by simpa [instanceTooHigh] using hi
    exact ⟨_, by simp only [execCustom, execCustomWith, hn]; rfl, .failed (by decide) (.inl rfl)⟩

/-- SET_INSTANCE_ID ends in a next state (R162). -/
theorem execSetInstanceId_effect (s : State) :
    ∃ t, execSetInstanceId s = .next t ∧ CommandEffect .setInstanceId s t := by
  by_cases hi : s.block.argInstance.toNat ≤ 16383
  · have hn : instanceTooHigh s.block = false := by simpa [instanceTooHigh] using hi
    exact ⟨_, by simp only [execSetInstanceId, hn]; rfl, .instanceSet hi⟩
  · have hn : instanceTooHigh s.block = true := by simpa [instanceTooHigh] using hi
    exact ⟨_, by simp only [execSetInstanceId, hn]; rfl, .failed (by decide) (.inl rfl)⟩

/-- UPDATE_TIME ends in a next state (R163). -/
theorem execUpdateTime_effect (s : State) :
    ∃ t, execUpdateTime s = .next t ∧ CommandEffect .updateTime s t := by
  refine ⟨_, rfl, ?_⟩
  cases h : timeBits Config.params s.block.cfgEpoch (timeSample s) with
  | ok t =>
    by_cases hw : s.block.tsValid = false ∨ t ≠ s.block.tsBits
    · have := CommandEffect.rolledOver h hw
      simpa [h, hw] using this
    · have hv : s.block.tsValid = true := by
        cases hs : s.block.tsValid <;> simp_all
      have ht : t = s.block.tsBits := by
        by_contra hne; exact hw (.inr hne)
      subst ht
      have := CommandEffect.sameBucket hv h
      simpa [h, hv] using this
  | error e =>
    have he : e ≠ .ok := by rcases timeBits_error h with rfl | rfl <;> decide
    have := CommandEffect.failed (i := .updateTime) (s := s) he (.inr rfl)
    simpa [h] using this

/-- What an issue can do, as a command's effect (R153). -/
theorem issue_effect {i : Instr} (hi : i = .nextId ∨ i = .nextIdWithHash) (m : List Byte) {s : State}
    (hv : s.block.tsValid = true) :
    (∃ t, issue Config.params m s = .next t ∧ CommandEffect i s t) ∨
    ∃ slot, 256 < (tableGet s.block.table slot).toNat ∧
      issue Config.params m s = .fault (.counterOutOfRange slot) := by
  rcases issue_cases Config.params m s with ⟨j, -, -, hc, he⟩ | ⟨-, he⟩ | h
  · exact .inl ⟨_, he, .issued hi hv hc⟩
  · exact .inl ⟨_, he, .failed (by decide) (.inl rfl)⟩
  · exact .inr h

/-- Everything a command can do: it answers a next state with one of the effects, or an issue stops on a
counter no run produces. -/
theorem exec_cases (i : Instr) (s : State) :
    (∃ t, exec i s = .next t ∧ CommandEffect i s t) ∨
    ((i = .nextId ∨ i = .nextIdWithHash) ∧ ∃ slot, 256 < (tableGet s.block.table slot).toNat ∧
      exec i s = .fault (.counterOutOfRange slot)) := by
  cases i with
  | new => exact .inl (execNew_effect s)
  | custom => exact .inl (execCustom_effect s)
  | setInstanceId => exact .inl (execSetInstanceId_effect s)
  | updateTime => exact .inl (execUpdateTime_effect s)
  | nextId =>
    cases hv : s.block.tsValid with
    | false =>
      exact .inl ⟨_, by simp only [exec, execNextId, execNextIdWith, hv]; rfl, .failed (by decide) (.inl rfl)⟩
    | true =>
      have he : exec .nextId s = issue Config.params (be8 s.block.wcount) s := by
        simp [exec, execNextId, execNextIdWith, hv]
      rw [he]
      exact (issue_effect (.inl rfl) _ hv).imp id fun h => ⟨.inl rfl, h⟩
  | nextIdWithHash =>
    cases hv : s.block.tsValid with
    | false =>
      exact .inl ⟨_, by simp only [exec, execNextIdWithHash, execNextIdWithHashWith, hv]; rfl,
        .failed (by decide) (.inl rfl)⟩
    | true =>
      by_cases hl : 256 < s.block.msgLen.toNat
      · refine .inl ⟨commit s (.error .messageTooLong), ?_, .failed (by decide) (.inl rfl)⟩
        simp [exec, execNextIdWithHash, execNextIdWithHashWith, hv, hl]
      · have he : exec .nextIdWithHash s = issue Config.params (messageOperand s.block) s := by
          simp [exec, execNextIdWithHash, execNextIdWithHashWith, hv, hl]
        rw [he]
        exact (issue_effect (.inr rfl) _ hv).imp id fun h => ⟨.inr rfl, h⟩

/-- The effect of a command that answered a next state. -/
theorem exec_effect {i : Instr} {s t : State} (h : exec i s = .next t) : CommandEffect i s t := by
  rcases exec_cases i s with ⟨u, hu, he⟩ | ⟨-, slot, -, hf⟩
  · rw [hu] at h
    exact (Host.Outcome.next.inj h) ▸ he
  · rw [hf] at h; cases h

/-- `exec` is the parametric machine at this hardware's parameters (R7). -/
theorem execWith_hardware (i : Instr) (s : State) : execWith Config.hardware i s = exec i s := by
  cases i <;> rfl

/-- So is `step`. -/
theorem stepWith_hardware (s : State) : stepWith Config.hardware s = step s := by
  have : execWith Config.hardware = exec := by funext i s; exact execWith_hardware i s
  rw [stepWith, step, this]

end Sys2Proof.Machine
end

