-- ==== Sys2Proof/Laws/PerInstr.lean ====
section
/-! SUPPORT. What holds of every command as syntax: its word has RSVD 0 and one of the six assigned
operation selectors (30_encoding.md R90, R92). -/

namespace Sys2Proof.Laws.CommandFields

/-- The command is well formed, and its word has RSVD 0 and OPC in 1..6. -/
def Statement (i : Instr) : Prop :=
  i.wf = true ∧ commandRsvd (encode i) = 0 ∧ 1 ≤ (commandOpc (encode i)).toNat ∧
    (commandOpc (encode i)).toNat ≤ 6

theorem new : Statement .new := ⟨rfl, rfl, by decide, by decide⟩
theorem custom : Statement .custom := ⟨rfl, rfl, by decide, by decide⟩
theorem setInstanceId : Statement .setInstanceId := ⟨rfl, rfl, by decide, by decide⟩
theorem updateTime : Statement .updateTime := ⟨rfl, rfl, by decide, by decide⟩
theorem nextId : Statement .nextId := ⟨rfl, rfl, by decide, by decide⟩
theorem nextIdWithHash : Statement .nextIdWithHash := ⟨rfl, rfl, by decide, by decide⟩

end Sys2Proof.Laws.CommandFields
end

