-- ==== Sys2Proof/Laws/Program.lean ====
section
/-! SUPPORT. Host programs run piece by piece (30_encoding.md R96), and commands repeated one more time. -/

namespace Sys2Proof.Machine

/-- A program of two parts runs the first and then the second. -/
theorem runProgram_append (p q : List HostAction) (s : State) :
    runProgram (p ++ q) s = (runProgram p s).bind (runProgram q) := by
  induction p generalizing s with
  | nil => rfl
  | cons a rest ih =>
    simp only [List.cons_append, runProgram]
    split <;> simp_all

/-- A `wr` line to a register other than CMD stores its value and goes on (R64, R96). -/
theorem runProgram_wr {r : Reg} (v : Word) (s : State) (rest : List HostAction)
    (hr : regAt 256 (offsetOf r) = r) (ha : Offset.aligned (offsetOf r) = true) (hc : r ≠ .cmd) :
    runProgram (wr r v :: rest) s = runProgram rest { s with block := writeReg v s.block r } := by
  simp [runProgram, wr, transact, ha, busWrite, hr, hc]

/-- One more execution comes after the others. -/
theorem repeatExec_succ (P : CheckedParams) (i : Instr) (n : Nat) (s : State) :
    repeatExec P i (n + 1) s = (repeatExec P i n s).bind (repeatExec P i 1) := by
  induction n generalizing s with
  | zero => rfl
  | succ n ih =>
    rw [repeatExec]
    conv_rhs => rw [repeatExec]
    cases execWith P i s with
    | next t => exact ih t
    | fault _ => rfl
    | refused _ => rfl

end Sys2Proof.Machine
end

