-- ==== Sys2Proof/Laws/Step.lean ====
section
/-! SUPPORT. Everything a step can do, said once. -/

namespace Sys2Proof.Machine

/-- A step with nothing presented changes nothing (#1). -/
theorem step_of_pending_nil {s : State} (h : s.pending = []) : step s = .next s := by
  simp [step, hostStep, h]

/-- A step takes the host's next action. -/
theorem step_of_pending_cons {s : State} {a : HostAction} {rest : List HostAction} (h : s.pending = a :: rest) :
    step s = transact Config.hardware.toParams exec a { s with pending := rest } := by
  simp [step, hostStep, h]

/-- Everything an action of the host can do. -/
theorem transact_cases (a : HostAction) (s : State) :
    (∃ off, a = .read off ∧ Offset.aligned off = true ∧
      transact Config.hardware.toParams exec a s = busRead Config.hardware.toParams off s) ∨
    (∃ off v, a = .write off v ∧ Offset.aligned off = true ∧ regAt 256 off ≠ .cmd ∧
      transact Config.hardware.toParams exec a s = .next { s with block := writeReg v s.block (regAt 256 off) }) ∨
    (∃ off v, a = .write off v ∧ Offset.aligned off = true ∧ regAt 256 off = .cmd ∧
      transact Config.hardware.toParams exec a s = command exec v s) ∨
    (∃ now, a = .time now ∧ transact Config.hardware.toParams exec a s = .next { s with nextTime := some now }) ∨
    (a = .reset ∧ transact Config.hardware.toParams exec a s = .next (resetBlock Config.params s)) ∨
    (∃ off, (a = .read off ∨ ∃ v, a = .write off v) ∧ Offset.aligned off = false ∧
      transact Config.hardware.toParams exec a s = .refused (.unalignedAccess off)) := by
  cases a with
  | read off =>
    cases h : Offset.aligned off with
    | true => exact .inl ⟨off, rfl, h, by simp [transact, h]⟩
    | false => exact .inr (.inr (.inr (.inr (.inr ⟨off, .inl rfl, h, by simp [transact, h]⟩))))
  | write off v =>
    cases h : Offset.aligned off with
    | true =>
      by_cases hr : regAt 256 off = .cmd
      · refine .inr (.inr (.inl ⟨off, v, rfl, h, hr, ?_⟩))
        simp [transact, h, busWrite, hr]
      · refine .inr (.inl ⟨off, v, rfl, h, hr, ?_⟩)
        simp [transact, h, busWrite, hr]
    | false => exact .inr (.inr (.inr (.inr (.inr ⟨off, .inr ⟨v, rfl⟩, h, by simp [transact, h]⟩))))
  | time now => exact .inr (.inr (.inr (.inl ⟨now, rfl, rfl⟩)))
  | reset => exact .inr (.inr (.inr (.inr (.inl ⟨rfl, rfl⟩))))

/-- Everything a step that answers a next state can have done: nothing, if nothing was presented; else
one of the six things an action of the host does. -/
theorem step_cases {s t : State} (h : step s = .next t) :
    (s.pending = [] ∧ t = s) ∨ ∃ a rest, s.pending = a :: rest ∧
      ((∃ off v, a = .read off ∧ t = { s with pending := rest, responses := v :: s.responses }) ∨
       (∃ off v, a = .write off v ∧ off ≠ 0#12 ∧
         t = { s with pending := rest, block := writeReg v s.block (regAt 256 off) }) ∨
       (∃ v i, a = .write 0#12 v ∧ decode v = .ok i ∧ CommandEffect i { s with pending := rest } t) ∨
       (∃ v e, a = .write 0#12 v ∧ decode v = .error e ∧
         t = { s with pending := rest, block := { s.block with err := 6#4 } }) ∨
       (∃ now, a = .time now ∧ t = { s with pending := rest, nextTime := some now }) ∨
       (a = .reset ∧ t = { s with pending := rest, block := State.reset.block })) := by
  cases hp : s.pending with
  | nil =>
    rw [step_of_pending_nil hp] at h
    exact .inl ⟨rfl, (Host.Outcome.next.inj h).symm⟩
  | cons a rest =>
    refine .inr ⟨a, rest, rfl, ?_⟩
    rw [step_of_pending_cons hp] at h
    rcases transact_cases a { s with pending := rest } with
      ⟨off, rfl, -, e⟩ | ⟨off, v, rfl, -, hc, e⟩ | ⟨off, v, rfl, -, hc, e⟩ | ⟨n, rfl, e⟩ | ⟨rfl, e⟩ |
      ⟨off, -, -, e⟩ <;> rw [e] at h
    · simp only [busRead] at h
      split at h
      · exact .inl ⟨off, _, rfl, (Host.Outcome.next.inj h).symm⟩
      · cases h
    · exact .inr (.inl ⟨off, v, rfl, fun h0 => hc (regAt_eq_cmd.mpr h0), (Host.Outcome.next.inj h).symm⟩)
    · rw [regAt_eq_cmd] at hc
      subst hc
      cases hd : decode v with
      | ok i =>
        simp only [command, hd] at h
        exact .inr (.inr (.inl ⟨v, i, rfl, hd, exec_effect h⟩))
      | error x =>
        simp only [command, hd, execIllegal, Host.Outcome.next.injEq] at h
        exact .inr (.inr (.inr (.inl ⟨v, x, rfl, hd, h.symm⟩)))
    · exact .inr (.inr (.inr (.inr (.inl ⟨n, rfl, (Host.Outcome.next.inj h).symm⟩))))
    · exact .inr (.inr (.inr (.inr (.inr ⟨rfl, (Host.Outcome.next.inj h).symm⟩))))
    · cases h

end Sys2Proof.Machine
end

