-- ==== Sys2Proof/Laws/Units.lean ====
section
/-! SUPPORT. The packed identifier bit by bit, the slots of a probe sequence as numbers, and the sum of the
collision table under a write. -/

namespace Sys2Proof.Machine

/-- Which input bit stands at each position of the packed value (R110). -/
theorem pack_getLsbD (h : BitVec 16) (t : BitVec 32) (i : BitVec 16) (q : BitVec 8) (j : Nat) :
    (pack h t i q).getLsbD j =
      if j < 8 then q.getLsbD j else if j < 18 then i.getLsbD (j - 8)
      else if j < 49 then t.getLsbD (j - 18) else if j < 63 then h.getLsbD (j - 49) else false := by
  have hq : 8 ≤ j → q.getLsbD j = false := fun hj => BitVec.getLsbD_of_ge _ _ hj
  simp only [pack, BitVec.getLsbD_or, BitVec.getLsbD_shiftLeft, BitVec.getLsbD_setWidth]
  split_ifs with h8 h18 h49 h63
  · have h49 : j < 49 := by omega
    have h18 : j < 18 := by omega
    have h64 : j < 64 := by omega
    simp [*]
  · have h49 : j < 49 := by omega
    have h64 : j < 64 := by omega
    have hi : j - 8 < 64 := by omega
    have hi' : j - 8 < 10 := by omega
    simp [hq (by omega), *]
  · have h64 : j < 64 := by omega
    have hn : ¬ j - 8 < 10 := by omega
    have ht : j - 18 < 64 := by omega
    have ht' : j - 18 < 31 := by omega
    simp [hq (by omega), *]
  · have h64 : j < 64 := by omega
    have hn : ¬ j - 8 < 10 := by omega
    have hm : ¬ j - 18 < 31 := by omega
    have hh : j - 49 < 64 := by omega
    have hh' : j - 49 < 14 := by omega
    simp [hq (by omega), *]
  · have hn : ¬ j - 8 < 10 := by omega
    have hm : ¬ j - 18 < 31 := by omega
    have hk : ¬ j - 49 < 14 := by omega
    simp [hq (by omega), *]

/-- The slot number of a probe, as the statements write it (R154). -/
theorem ofNat_add_eq_slotAt (s : Slot) (p : Nat) : BitVec.ofNat 14 (s.toNat + p) = slotAt s p := by
  apply BitVec.eq_of_toNat_eq
  simp [slotAt_toNat]

/-- The probe loop answers the first free slot (R153). -/
theorem probe_of_firstFreeSlot {t : CollisionTable} {s0 slot : Slot} {n c : Nat}
    (h : FirstFreeSlot t s0 n slot c) :
    probe t n s0 = .found slot (tableGet t slot) ∧ (tableGet t slot).toNat = c ∧ c < 256 := by
  obtain ⟨j, hj, rfl, hc, hlt, hb⟩ := h
  rw [ofNat_add_eq_slotAt] at *
  refine ⟨probe_found hj (fun p hp => ?_) (by omega), hc, hlt⟩
  rw [← ofNat_add_eq_slotAt]
  exact hb p hp

/-- The probe loop fails when every probed slot is exhausted (R157). -/
theorem probe_of_allExhausted {t : CollisionTable} {s0 : Slot} {n : Nat} (h : AllExhausted t s0 n) :
    probe t n s0 = .exhausted :=
  probe_exhausted fun p hp => by
    rw [← ofNat_add_eq_slotAt]
    exact h p hp

/-- The cleared table sums to 0 (R34 (b)). -/
@[simp] theorem tableTotal_nil : tableTotal [] = 0 := by simp [tableTotal]

/-- A write moves the sum by what it writes less what it overwrites (R34 (b)). -/
theorem tableTotal_set (t : CollisionTable) (slot : Slot) (c : Counter) :
    tableTotal (tableSet t slot c) + (tableGet t slot).toNat = tableTotal t + c.toNat := by
  have hu : (fun s : Fin 16384 => (sparseGet (tableSet t slot c) s.val).toNat) =
      Function.update (fun s : Fin 16384 => (sparseGet t s.val).toNat) ⟨slot.toNat, slot.isLt⟩ c.toNat := by
    funext s
    simp only [tableSet, sparseGet_set, Function.update_apply, Fin.ext_iff]
    split <;> rfl
  have he := Finset.add_sum_erase Finset.univ (fun s : Fin 16384 => (sparseGet t s.val).toNat)
    (Finset.mem_univ (⟨slot.toNat, slot.isLt⟩ : Fin 16384))
  have hs : tableTotal (tableSet t slot c) = c.toNat + ∑ s ∈ Finset.univ.erase (⟨slot.toNat, slot.isLt⟩ : Fin 16384),
      (sparseGet t s.val).toNat := by
    rw [tableTotal, hu, Finset.sum_update_of_mem (Finset.mem_univ _), Finset.sdiff_singleton_eq_erase]
  rw [hs, tableTotal, ← he]
  simp only [tableGet]
  omega

end Sys2Proof.Machine
end

