-- ==== Sys2Proof/Tests/Slice0.lean ====
section
/-! SUPPORT. Tests: the words of the opcode map, ill-formed terms that the checks refuse, the vectors of
95_test_vectors.md one step at a time, and for every statement with hypotheses a state and operands that
meet them. Expected values are the spec's. -/

open Sys2Proof Sys2Proof.Machine

namespace Sys2Proof.Tests

/-! ### Decoding: every word written out from 30_encoding.md R90, R92, R93 -/

theorem test_decode_commands :
    decode 0b00000000000000000000000000000001 = .ok .new ∧
    decode 0b00000000000000000000000000000010 = .ok .custom ∧
    decode 0b00000000000000000000000000000011 = .ok .setInstanceId ∧
    decode 0b00000000000000000000000000000100 = .ok .updateTime ∧
    decode 0b00000000000000000000000000000101 = .ok .nextId ∧
    decode 0b00000000000000000000000000000110 = .ok .nextIdWithHash := by decide

theorem test_decode_illegal :
    decode 0x00000000 = .error .unassignedOpcode ∧ decode 0x00000007 = .error .unassignedOpcode ∧
    decode 0x0000000F = .error .unassignedOpcode ∧ decode 0x00000015 = .error .reservedBitsSet ∧
    decode 0x80000001 = .error .reservedBitsSet ∧ decode 0x00000010 = .error .reservedBitsSet := by decide

theorem test_decode_table_word :
    decodeTableWord 32 0x00000003 = some .setInstanceId ∧ decodeTableWord 32 0x00000007 = none ∧
    decodeTableWord 8 0x06 = some .nextIdWithHash ∧ decodeTableWord 40 0x01 = none := by decide

/-! ### Well-formedness: what each check refuses -/

theorem test_wf_offsets :
    (HostAction.read 0x002).wf = false ∧ (HostAction.write 0x101 0).wf = false ∧
    (HostAction.read 0xFFC).wf = true ∧ programWf [.time 0, .write 0x000 1, .read 0x003] = false := by decide

/-! ### The fixture T0 (95_test_vectors.md section 0) -/

/-- The value of a byte list, most significant byte first. -/
def beValue (m : List Byte) : Nat := m.foldl (fun n b => 256 * n + b.toNat) 0

/-- T0: a test fixture, not the hardware. -/
def T0 : Params where
  kh64 m _ := BitVec.ofNat 64 (beValue (m.drop (m.length - 8)))
  perm31 := (List.range 31).map (fun i => (i + 1) % 31)
  perm8 := (List.range 8).map (fun i => (i + 1) % 8)
  defaultHashKey := Vector.replicate 16 0
  probeLimit := 10
  packInstance := false
  msgMax := 256
  defaultCounterKey := 42
  defaultEpoch := 1719792000
  defaultInstanceId := 0

/-- What the parameter check says of T0 and of parameters that break one condition each (R7, R134). -/
theorem test_params_check :
    T0.error? = none ∧
    { T0 with perm31 := T0.perm31.drop 1 }.error? = some .perm31NotBijective ∧
    { T0 with perm8 := [0, 0, 2, 3, 4, 5, 6, 7] }.error? = some .perm8NotBijective ∧
    { T0 with probeLimit := 0 }.error? = some .probeLimitZero ∧
    { T0 with msgMax := 258 }.error? = some .msgMaxOutOfRange ∧
    { T0 with msgMax := 3844 }.error? = some .msgMaxOutOfRange := by decide

/-- T0 passed the check. -/
def t0 : CheckedParams := ⟨T0, by decide⟩

/-- The block in reset under T0, with a time `d` seconds after the default epoch on the port. -/
def resetAt (d : Int) : State :=
  { State.resetWith T0 with nextTime := some (BitVec.ofInt 64 (1719792000 + d)) }

/-- The block after C-1: a window open at bucket 0. -/
def openAt (d : Int) : State :=
  { resetAt d with block := { (resetAt d).block with tsValid := true } }

/-- What a test looks at: ERR, TS_VALID, TS_BITS, WCOUNT, ID and the table. -/
structure Seen where
  err : BitVec 4
  tsValid : Bool
  tsBits : TimeBits
  wcount : DWord
  idReg : DWord
  table : CollisionTable
  deriving DecidableEq, Repr

/-- What a test sees of an outcome. -/
def look (o : Host.Outcome State Fault Refusal) : Option Seen :=
  match o with
  | .next t => some ⟨t.block.err, t.block.tsValid, t.block.tsBits, t.block.wcount, t.block.idReg, t.block.table⟩
  | .fault _ => none
  | .refused _ => none

/-- The same state with another block. -/
def onBlock (s : State) (f : Block → Block) : State := { s with block := f s.block }

/-- C-1, C-2, C-3, C-4. -/
theorem test_new :
    look (execWith t0 .new (resetAt 5)) = some ⟨0, true, 0, 0, 0, []⟩ ∧
    look (execWith t0 .new (resetAt (-1))) = some ⟨1, false, 0, 0, 0, []⟩ ∧
    look (execWith t0 .new (resetAt 0x3FFFFFFF9)) = some ⟨2, false, 0, 0, 0, []⟩ ∧
    look (execWith t0 .new (resetAt 0x3FFFFFFF8)) = some ⟨0, true, 0x7FFFFFFF, 0, 0, []⟩ := by decide

/-- C-6 and C-9: the priority of the instance id, and a counter key and an epoch from the arguments. -/
theorem test_custom :
    look (execWith t0 .custom (onBlock (resetAt 0) fun b =>
      { b with argInstance := 16384, argEpochLo := 1719792100 })) = some ⟨4, false, 0, 0, 0, []⟩ ∧
    look (execWith t0 .custom (onBlock (resetAt (16 - 1719792000)) fun b =>
      { b with argInstance := 16383, argCkey := 0x100 })) = some ⟨0, true, 1, 0, 0, []⟩ := by decide

/-- The bytes `ldkey 0x00 .. 0x0f` of program P3 step 4 puts in the key. -/
theorem test_custom_key :
    keyOperand { (resetAt 0).block with
      argKey0 := 0x03020100, argKey1 := 0x07060504, argKey2 := 0x0B0A0908, argKey3 := 0x0F0E0D0C } =
      #v[0, 1, 2, 3, 4, 5, 6, 7, 8, 9, 10, 11, 12, 13, 14, 15] ∧
    asmLdkey #v[0, 1, 2, 3, 4, 5, 6, 7, 8, 9, 10, 11, 12, 13, 14, 15] =
      [.write 0x030 0x03020100, .write 0x034 0x07060504, .write 0x038 0x0B0A0908, .write 0x03C 0x0F0E0D0C] := by
  decide

/-- ERR and the instance id after SET_INSTANCE_ID of a value. -/
def afterSetInstance (v : Word) : Option (BitVec 4 × BitVec 14) :=
  match execWith t0 .setInstanceId (onBlock (resetAt 0) fun b => { b with argInstance := v }) with
  | .next t => some (t.block.err, t.block.cfgInstanceId)
  | .fault _ => none
  | .refused _ => none

/-- C-11, C-12 and a value whose low 14 bits alone would be legal (D27). -/
theorem test_set_instance_id :
    afterSetInstance 16383 = some (0, 16383) ∧ afterSetInstance 16384 = some (4, 0) ∧
    afterSetInstance 0x00010005 = some (4, 0) := by decide

/-- A window at bucket 0 in which two identifiers were issued (C-20). -/
def usedAt (d : Int) : State := onBlock (openAt d) fun b => { b with wcount := 2, table := [(0, 1), (1, 1)] }

/-- C-14, C-15, and C-13: same bucket, next bucket, fresh state. -/
theorem test_update_time :
    look (execWith t0 .updateTime (usedAt 7)) = some ⟨0, true, 0, 2, 0, [(0, 1), (1, 1)]⟩ ∧
    look (execWith t0 .updateTime (usedAt 8)) = some ⟨0, true, 0x40000000, 0, 0, []⟩ ∧
    look (execWith t0 .updateTime (resetAt 0)) = some ⟨0, true, 0, 0, 0, []⟩ := by decide

/-- C-17, C-19, C-20. -/
theorem test_next_id :
    look (execWith t0 .nextId (resetAt 0)) = some ⟨5, false, 0, 0, 0, []⟩ ∧
    look (execWith t0 .nextId (openAt 0)) = some ⟨0, true, 0, 1, 0x15, [(0, 1)]⟩ ∧
    look (execWith t0 .nextId (onBlock (openAt 0) fun b =>
      { b with wcount := 1, idReg := 0x15, table := [(0, 1)] })) =
      some ⟨0, true, 0, 2, 0x0002000000000015, [(0, 1), (1, 1)]⟩ := by decide

/-- Program P5 step 3: PACK_INSTANCE true keeps ten bits of the instance id (R156). -/
theorem test_next_id_packs_instance :
    look (execNextIdWith { T0 with packInstance := true }
      (onBlock (openAt 0) fun b => { b with cfgInstanceId := 0x3FFF })) =
      some ⟨0, true, 0, 1, 0x3FF15, [(0, 1)]⟩ := by decide

/-- C-21, C-24, C-23 and program P1 step 14. -/
theorem test_next_id_with_hash :
    look (execWith t0 .nextIdWithHash (onBlock (openAt 0) fun b => { b with msgLen := 257 })) =
      some ⟨7, true, 0, 0, 0, []⟩ ∧
    look (execWith t0 .nextIdWithHash (onBlock (resetAt 0) fun b => { b with msgLen := 257 })) =
      some ⟨5, false, 0, 0, 0, []⟩ ∧
    look (execWith t0 .nextIdWithHash (openAt 0)) = some ⟨0, true, 0, 1, 0x15, [(0, 1)]⟩ ∧
    look (execWith t0 .nextIdWithHash (onBlock (usedAt 0) fun b => { b with msgLen := 1 })) =
      some ⟨0, true, 0, 3, 0x95, [(0, 2), (1, 1)]⟩ := by decide

/-- The message 0x3F 0xFC, whose slot is 16380 under T0, over a table. -/
def probing (tab : CollisionTable) : State :=
  onBlock (openAt 0) fun b => { b with msgLen := 2, msg := [(0, 0x3F), (1, 0xFC)], table := tab }

/-- Probing across the top of the table (95 section 2.6), and C-29 for the same message. -/
theorem test_next_id_with_hash_probes :
    look (execWith t0 .nextIdWithHash
      (probing [(16380, 256), (16381, 256), (16382, 256), (16383, 256)])) =
      some ⟨0, true, 0, 1, 0x15, [(0, 1), (16380, 256), (16381, 256), (16382, 256), (16383, 256)]⟩ ∧
    look (execWith t0 .nextIdWithHash (probing [(0, 256), (1, 256), (2, 256), (3, 256), (4, 256), (5, 256),
      (16380, 256), (16381, 256), (16382, 256), (16383, 256)])) =
      some ⟨3, true, 0, 0, 0, [(0, 256), (1, 256), (2, 256), (3, 256), (4, 256), (5, 256), (16380, 256),
        (16381, 256), (16382, 256), (16383, 256)]⟩ := by decide

/-- C-25 and C-26, one step each of the whole machine. -/
theorem test_illegal_words :
    look (stepWith t0 (present [cmdWrite 0x7] (openAt 0))) = some ⟨6, true, 0, 0, 0, []⟩ ∧
    look (stepWith t0 (present [cmdWrite 0x15] (openAt 0))) = some ⟨6, true, 0, 0, 0, []⟩ := by decide

/-- 95 section 2.1. -/
theorem test_pack :
    pack 0 0 0 0 = 0 ∧ pack 0xFFFF 0xFFFFFFFF 0xFFFF 0xFF = 0x7FFFFFFFFFFFFFFF ∧
    pack 1 0 0 0 = 0x0002000000000000 ∧ pack 0 1 0 0 = 0x40000 ∧ pack 0 0 1 0 = 0x100 ∧ pack 0 0 0 1 = 1 ∧
    pack 0x4000 0 0 0 = 0 ∧ pack 0 0x80000000 0 0 = 0 ∧ pack 0 0 0x400 0 = 0 ∧ pack 0 0 0x3FFF 0 = 0x3FF00 ∧
    pack 0x1234 0x05678ABC 0x155 0xA5 = 0x2468159E2AF155A5 := by decide

/-- 95 sections 2.2 and 2.3. -/
theorem test_units :
    slotHash T0 [] T0.defaultHashKey = 0 ∧ slotHash T0 [0x3F, 0xFF] T0.defaultHashKey = 0x3FFF ∧
    slotHash T0 [0x12, 0x34, 0x56] T0.defaultHashKey = 0x3456 ∧
    slotHash T0 (be8 16384) T0.defaultHashKey = 0 ∧ slotHash T0 (be8 5) T0.defaultHashKey = 5 ∧
    slotHash T0 [0xAA, 0, 0, 0, 0, 0, 0, 0, 0x01] T0.defaultHashKey = 1 ∧
    p8 T0 0x01 = 0x80 ∧ p8 T0 0x80 = 0x40 ∧ p8 T0 0x2A = 0x15 ∧ p8 T0 0x2B = 0x95 ∧ p8 T0 0xD5 = 0xEA ∧
    p31 T0 1 = 0x40000000 ∧ p31 T0 0x12345678 = 0x091A2B3C ∧ p31 T0 0x7FFFFFFE = 0x3FFFFFFF ∧
    tableFromMsbFirst [7, 0, 1, 2, 3, 4, 5, 6] = T0.perm8 := by decide

/-- The quantizer `d` seconds after the default epoch. -/
def quantizeAt (d : Int) : Option Nat × Option ErrCode :=
  match quantize 1719792000 (BitVec.ofInt 64 (1719792000 + d)) with
  | .ok q => (some q.toNat, none)
  | .error e => (none, some e)

/-- 95 section 2.4. -/
theorem test_quantize :
    quantizeAt (-1) = (none, some .epochInFuture) ∧ quantizeAt 7 = (some 0, none) ∧
    quantizeAt 8 = (some 1, none) ∧ quantizeAt 0x3FFFFFFF7 = (some 0x7FFFFFFE, none) ∧
    quantizeAt 0x3FFFFFFF8 = (some 2147483647, none) ∧
    quantizeAt 0x3FFFFFFF9 = (none, some .timestampOverflow) := by decide

/-- A register of the block after a write of a word to its offset. -/
def readBack (off : Offset) (v : Word) : Option Word :=
  match readReg (writeReg v (Block.resetWith T0) (regAt 256 off)) (regAt 256 off) with
  | .ok x => some x
  | .error _ => none

/-- 95 section 2.5: a read-only register, reserved offsets, a register and a message word after a write. -/
theorem test_bus :
    readBack 0x004 0xFFFFFFFF = some 0 ∧ readBack 0x01C 0x12345678 = some 0 ∧ readBack 0x044 1 = some 0 ∧
    readBack 0x024 0xDEADBEEF = some 0xDEADBEEF ∧ readBack 0x200 5 = some 0 ∧ readBack 0x008 1 = some 0 ∧
    readBack 0x100 0x44332211 = some 0x44332211 ∧
    (writeReg 0x44332211 (Block.resetWith T0) (regAt 256 0x100)).msg =
      [(0, 0x11), (1, 0x22), (2, 0x33), (3, 0x44)] := by decide

/-! ### Witnesses: states and operands that meet the hypotheses of the statements, on this hardware -/

/-- This hardware in reset, with a time `d` seconds after the default epoch on the port. -/
def hwReset (d : Int) : State :=
  { State.reset with nextTime := some (BitVec.ofInt 64 (1719792000 + d)) }

/-- This hardware with a window open at bucket 0. -/
def hwOpen (d : Int) : State :=
  onBlock (hwReset d) fun b => { b with tsValid := true, tsBits := p31 Config.params 0 }

/-- `n` slots from `s0` on hold 256, every other slot 0. -/
def exhaust (s0 : Slot) : Nat → CollisionTable
  | 0 => []
  | n + 1 => tableSet (exhaust s0 n) (BitVec.ofNat 14 (s0.toNat + n)) 256

theorem exhaust_get (s0 : Slot) (n p : Nat) (hp : p < n) :
    tableGet (exhaust s0 n) (BitVec.ofNat 14 (s0.toNat + p)) = 256 := by
  induction n with
  | zero => omega
  | succ n ih =>
    rw [exhaust, tableGet_tableSet]
    by_cases h : p = n
    · subst h; simp
    · rw [ih (by omega)]; simp

theorem exhaust_get_next (s0 : Slot) (n q : Nat) (hn : n ≤ q) (hq : q < 16384) :
    tableGet (exhaust s0 n) (BitVec.ofNat 14 (s0.toNat + q)) = 0 := by
  induction n with
  | zero => rfl
  | succ n ih =>
    have hne : BitVec.ofNat 14 (s0.toNat + q) ≠ BitVec.ofNat 14 (s0.toNat + n) := by
      intro h
      have := congrArg BitVec.toNat h
      rw [BitVec.toNat_ofNat, BitVec.toNat_ofNat] at this
      have := s0.isLt
      omega
    rw [exhaust, tableGet_tableSet, if_neg hne]
    exact ih (by omega)

/-- Nine exhausted slots, and the tenth at the counter `c`. -/
def tenth (s0 : Slot) (c : Counter) : CollisionTable :=
  tableSet (exhaust s0 9) (BitVec.ofNat 14 (s0.toNat + 9)) c

theorem tenth_before (s0 : Slot) (c : Counter) (p : Nat) (hp : p < 9) :
    tableGet (tenth s0 c) (BitVec.ofNat 14 (s0.toNat + p)) = 256 := by
  have hne : BitVec.ofNat 14 (s0.toNat + p) ≠ BitVec.ofNat 14 (s0.toNat + 9) := by
    intro h
    have := congrArg BitVec.toNat h
    rw [BitVec.toNat_ofNat, BitVec.toNat_ofNat] at this
    have := s0.isLt
    omega
  rw [tenth, tableGet_tableSet, if_neg hne]
  exact exhaust_get s0 9 p hp

theorem tenth_at (s0 : Slot) (c : Counter) : tableGet (tenth s0 c) (BitVec.ofNat 14 (s0.toNat + 9)) = c := by
  rw [tenth, tableGet_tableSet, if_pos rfl]

/-- The tenth probe at counter 255 meets `FirstFreeSlot` at both its bounds. -/
theorem firstFree_tenth (s0 : Slot) :
    FirstFreeSlot (tenth s0 255) s0 10 (BitVec.ofNat 14 (s0.toNat + 9)) 255 :=
  ⟨9, by omega, rfl, by rw [tenth_at]; rfl, by omega, tenth_before s0 255⟩

/-- A clear table meets `FirstFreeSlot` at its first slot. -/
theorem firstFree_first (s0 : Slot) : FirstFreeSlot [] s0 10 s0 0 :=
  ⟨0, by omega, by simp, rfl, by omega, fun p hp => by omega⟩

theorem allExhausted_ten (s0 : Slot) : AllExhausted (exhaust s0 10) s0 10 := exhaust_get s0 10

/-- A run that commands can be read from: any command answers a next state in reset. -/
theorem witness_exec_answers (i : Instr) : ∃ t, exec i State.reset = .next t := by cases i <;> exact ⟨_, rfl⟩

theorem witness_DecodeEncodeAgree : Instr.nextIdWithHash.wf = true ∧ decode 6 = .ok .nextIdWithHash := by decide

theorem witness_IllegalWordSetsErrOnly :
    (0x10 : Word).toNat / 16 ≠ 0 ∧ (0x0 : Word).toNat % 16 = 0 ∧ 7 ≤ (0x7 : Word).toNat % 16 ∧
    (present [.write 0x000 0x7] State.reset).pending = .write 0x000 0x7 :: [] := by decide

theorem witness_StepRunsDecodedCommand :
    (State.reset.withFetchWord 32 6).pending = .write 0x000 6 :: [] ∧ decode 6 = .ok .nextIdWithHash ∧
    Instr.nextIdWithHash.wf = true := by decide

theorem witness_ResetInputRestoresBlock : (present [.reset] (hwOpen 0)).pending = .reset :: [] := rfl

/-- A fresh block, and the last aligned offset. -/
theorem witness_EveryOffsetReadsZeroAfterReset :
    HoldsResetValues (present [.read 0xFFC] (hwReset 0)).block ∧ (0xFFC : Offset).toNat % 4 = 0 ∧
    (present [.read 0xFFC] (hwReset 0)).pending = .read 0xFFC :: [] :=
  ⟨⟨rfl, rfl, rfl, fun _ => rfl, rfl, rfl, rfl, rfl, rfl, rfl, rfl, rfl, rfl, rfl, rfl, rfl, rfl, rfl, rfl,
    fun _ => rfl⟩, by decide, rfl⟩

/-- NEW at the epoch leaves the fresh state; the largest legal instance id is stored in it. -/
theorem witness_FreshBlockCannotIssue :
    (hwReset 0).block.tsValid = false ∧
    (onBlock (hwReset 0) fun b => { b with argInstance := 16383 }).block.argInstance.toNat ≤ 16383 ∧
    ∃ t, step (present [cmdWrite 1] (hwReset 0)) = .next t ∧ t.block.tsValid = true :=
  ⟨rfl, by decide, _, rfl, rfl⟩

/-- ERR at its largest, the first and last message word, and the ends of the reserved ranges. -/
theorem witness_BusReadReturnsRegister :
    (onBlock (hwReset 0) fun b => { b with err := 7 }).block.err.toNat ≤ 7 ∧ 0 < 64 ∧ 63 < 64 ∧
    (0x044 : Offset).toNat % 4 = 0 ∧ 0x044 ≤ (0x044 : Offset).toNat ∧
    (0x0FC : Offset).toNat % 4 = 0 ∧ (0x0FC : Offset).toNat ≤ 0x0FC ∧
    (0x200 : Offset).toNat % 4 = 0 ∧ 0x200 ≤ (0x200 : Offset).toNat ∧
    (0xFFC : Offset).toNat % 4 = 0 ∧ 0x200 ≤ (0xFFC : Offset).toNat := by decide

/-- A command, an illegal word, and the ends of the ranges that ignore a write. -/
theorem witness_BusWriteStoresOrCommands :
    decode 1 = .ok .new ∧ decode 0 = .error .unassignedOpcode ∧
    (0x004 : Offset).toNat % 4 = 0 ∧ 0x004 ≤ (0x004 : Offset).toNat ∧
    (0x01C : Offset).toNat % 4 = 0 ∧ (0x01C : Offset).toNat ≤ 0x01C ∧
    (0x044 : Offset).toNat % 4 = 0 ∧ 0x044 ≤ (0x044 : Offset).toNat ∧
    (0x0FC : Offset).toNat % 4 = 0 ∧ (0x0FC : Offset).toNat ≤ 0x0FC ∧
    (0xFFC : Offset).toNat % 4 = 0 ∧ 0x200 ≤ (0xFFC : Offset).toNat := by decide

theorem witness_UnalignedAccessIsRefused :
    (0xFFF : Offset).toNat % 4 ≠ 0 ∧ (present [.read 0xFFF] State.reset).pending = .read 0xFFF :: [] ∧
    (0x001 : Offset).toNat % 4 ≠ 0 ∧ (present [.write 0x001 1] State.reset).pending = .write 0x001 1 :: [] :=
  ⟨by decide, rfl, by decide, rfl⟩

/-- A window in which one identifier was issued, in slot 16383. -/
def onceBlock : Block :=
  { (hwOpen 0).block with wcount := 1, table := [(16383, 1)] }

/-- The same, with something to do next. -/
def issuedOnce (prog : List HostAction) : State := { hwOpen 0 with block := onceBlock, pending := prog }

theorem onceBlock_inv : BlockInv Config.hardware.msgMax onceBlock where
  tableWf := rfl
  msgWf := rfl
  counterBound s := by
    show (tableGet (tableSet [] 16383 1) s).toNat ≤ 256
    rw [tableGet_tableSet, tableGet_nil]
    split <;> decide
  countIsSum := by
    show (1 : DWord).toNat = tableTotal (tableSet [] 16383 1)
    have h := tableTotal_set [] 16383 1
    rw [tableTotal_nil, tableGet_nil] at h
    have h0 : (0 : Counter).toNat = 0 := rfl
    have h1 : (1 : Counter).toNat = 1 := rfl
    have h2 : (1 : DWord).toNat = 1 := rfl
    omega
  freshIsZero h := absurd h (by decide)
  errBound := by decide
  idTopBit := by decide

theorem witness_Inv (prog : List HostAction) : Inv (issuedOnce prog) := onceBlock_inv

theorem witness_RegisterWritesAreIdempotent :
    Inv (issuedOnce []) ∧ (0x1FC : Offset).toNat % 4 = 0 ∧ (0x1FC : Offset) ≠ 0 :=
  ⟨witness_Inv _, by decide, by decide⟩

theorem witness_OnlyCmdWritesHaveSideEffects :
    (∃ t, step (issuedOnce [.write 0x020 5]) = .next t) ∧ (∃ t, step (issuedOnce [.read 0x004]) = .next t) ∧
    HostAction.write 0x020 5 ≠ .reset ∧ ∀ v, HostAction.write 0x020 5 ≠ .write 0x000 v :=
  ⟨⟨_, rfl⟩, ⟨_, rfl⟩, by decide, fun v h => by injection h with h; exact absurd h (by decide)⟩

theorem witness_LdmsgLoadsMessage : (List.replicate 256 (0xA5 : Byte)).length ≤ 256 :=
  List.length_replicate.le

/-- The largest fields: `h' = h` and so on meet the last hypothesis. -/
theorem witness_UnpackInvertsPack :
    (0x3FFF : BitVec 16).toNat < 2 ^ 14 ∧ (0x7FFFFFFF : BitVec 32).toNat < 2 ^ 31 ∧
    (0x3FF : BitVec 16).toNat < 2 ^ 10 ∧
    pack 0x3FFF 0x7FFFFFFF 0x3FF 0xFF = pack 0x3FFF 0x7FFFFFFF 0x3FF 0xFF := ⟨by decide, by decide, by decide, rfl⟩

theorem witness_PermuteTakesTableBits : T0.perm8.length = 8 ∧ 7 < T0.perm8.length := by decide

theorem witness_MsbFirstTableConverts :
    ([7, 0, 1, 2, 3, 4, 5, 6] : List Nat).length = 8 ∧ (∀ x ∈ ([7, 0, 1, 2, 3, 4, 5, 6] : List Nat), x < 8) := by
  decide

theorem witness_PermutePreservesPopcount : isBijection 31 T0.perm31 = true := by decide

theorem witness_PermutationsAreInjective :
    isBijection 8 T0.perm8 = true ∧ permute (0x2A : BitVec 8) T0.perm8 = permute 0x2A T0.perm8 :=
  ⟨by decide, rfl⟩

/-- Each clause at its boundary, the epoch at the default. -/
theorem witness_QuantizeIsExact :
    (1719791999 : DWord).toInt - (1719792000 : DWord).toInt < 0 ∧
    0x3FFFFFFF8 < (18899661177 : DWord).toInt - (1719792000 : DWord).toInt ∧
    0 ≤ (1719792000 : DWord).toInt - (1719792000 : DWord).toInt ∧
    (18899661176 : DWord).toInt - (1719792000 : DWord).toInt = 0x3FFFFFFF8 := by decide

theorem witness_QuantizeBucketsTime :
    quantize 0 (-0 : DWord) = .ok 0 ∧ quantize 0 7 = .ok 0 ∧ quantize 0 8 = .ok 1 ∧
    (0 : DWord).toInt ≤ (7 : DWord).toInt ∧ (0 : DWord).toInt + 8 * 0 ≤ (0 : DWord).toInt ∧
    (7 : DWord).toInt ≤ (0 : DWord).toInt + 8 * 0 + 7 ∧ (0 : DWord).toInt + 8 ≤ (8 : DWord).toInt :=
  ⟨rfl, rfl, rfl, by decide, by decide, by decide, by decide⟩

theorem witness_NewOpensDefaultWindow :
    timeSample (hwReset 0x3FFFFFFF8) = 18899661176 ∧ (18899661176 : DWord).toInt - 1719792000 = 0x3FFFFFFF8 ∧
    timeSample (hwReset 0) = 1719792000 ∧ 0 ≤ (1719792000 : DWord).toInt - 1719792000 ∧
    timeSample (hwReset (-1)) = 1719791999 ∧ (1719791999 : DWord).toInt < 1719792000 ∧
    timeSample (hwReset 0x3FFFFFFF9) = 18899661177 ∧ 0x3FFFFFFF8 < (18899661177 : DWord).toInt - 1719792000 := by
  decide

/-- The argument epoch -1 (before 1970), the time port at the ends of its range. -/
def hwCustom (arg : Word) (now : DWord) : State :=
  { onBlock State.reset fun b =>
      { b with argInstance := arg, argEpochLo := 0xFFFFFFFF, argEpochHi := 0xFFFFFFFF } with
    nextTime := some now }

theorem witness_CustomOpensArgumentWindow :
    ((hwCustom 0 0).block.argEpochHi ++ (hwCustom 0 0).block.argEpochLo : BitVec 64).toInt = -1 ∧
    16383 < (hwCustom 16384 0).block.argInstance.toNat ∧ (hwCustom 16383 0).block.argInstance.toNat ≤ 16383 ∧
    timeSample (hwCustom 16383 (-1)) = -1 ∧ (-1 : DWord).toInt - (-1) = 0 ∧
    timeSample (hwCustom 16383 0x3FFFFFFF7) = 0x3FFFFFFF7 ∧ (0x3FFFFFFF7 : DWord).toInt - (-1) = 0x3FFFFFFF8 ∧
    timeSample (hwCustom 16383 (-2)) = -2 ∧ (-2 : DWord).toInt < -1 ∧
    timeSample (hwCustom 16383 0x3FFFFFFF8) = 0x3FFFFFFF8 ∧
    0x3FFFFFFF8 < (0x3FFFFFFF8 : DWord).toInt - (-1) := by decide

theorem witness_SetInstanceIdStoresOrFails :
    (hwCustom 16383 0).block.argInstance.toNat ≤ 16383 ∧ 16383 < (hwCustom 16384 0).block.argInstance.toNat := by
  decide

/-- An open window whose timestamp bits are not those of bucket 0. -/
def hwStale : State := onBlock (hwOpen 0) fun b => { b with tsBits := p31 Config.params 0 + 1 }

theorem witness_UpdateTimeRefreshesWindow :
    (hwOpen 7).block.tsValid = true ∧ (hwReset 0x3FFFFFFF8).block.tsValid = false ∧
    BitVec.ofNat 31 (((1719792007 : DWord).toInt - (hwOpen 7).block.cfgEpoch.toInt) / 8).toNat = 0 ∧
    p31 Config.params 0 = (hwOpen 7).block.tsBits ∧ p31 Config.params 0 ≠ hwStale.block.tsBits ∧
    timeSample (hwOpen 7) = 1719792007 ∧ timeSample hwStale = 1719792000 ∧
    (1719791999 : DWord).toInt < (hwReset (-1)).block.cfgEpoch.toInt ∧
    0x3FFFFFFF8 < (18899661177 : DWord).toInt - (hwReset 0x3FFFFFFF9).block.cfgEpoch.toInt := by
  refine ⟨rfl, rfl, rfl, rfl, ?_, rfl, rfl, by decide, by decide⟩
  show p31 Config.params 0 ≠ p31 Config.params 0 + 1
  simp

/-- The table of a state. -/
def onTable (s : State) (t : CollisionTable) : State := onBlock s fun b => { b with table := t }

/-- The slot T0 gives the message 0x00, whatever the key. -/
theorem t0_slot (k : Key) : (0 : Slot) = (t0.kh64 [0] k).extractLsb' 0 14 := rfl

theorem witness_IssueTakesFirstFreeSlot :
    (0 : Slot) = (t0.kh64 [0] (onTable (openAt 0) (tenth 0 255)).block.cfgHashKey).extractLsb' 0 14 ∧
    FirstFreeSlot (onTable (openAt 0) (tenth 0 255)).block.table 0 t0.probeLimit 9 255 ∧
    (0 : Slot) = (t0.kh64 [0] (onTable (openAt 0) (exhaust 0 10)).block.cfgHashKey).extractLsb' 0 14 ∧
    AllExhausted (onTable (openAt 0) (exhaust 0 10)).block.table 0 t0.probeLimit :=
  ⟨t0_slot _, firstFree_tenth 0, t0_slot _, allExhausted_ten 0⟩

/-- The slot of this hardware's first NEXT_ID of a window, whatever it is. -/
def hwSlot : Slot :=
  (Config.kh64 ((List.range 8).map fun k => BitVec.ofNat 8 ((0 : DWord).toNat / 2 ^ (8 * (7 - k))))
    Config.defaultHashKey).extractLsb' 0 14

theorem witness_NextIdIssuesIdentifier (tab : CollisionTable) :
    (onTable (hwOpen 0) tab).block.tsValid = true ∧
    hwSlot = (Config.kh64 ((List.range 8).map fun k =>
        BitVec.ofNat 8 ((onTable (hwOpen 0) tab).block.wcount.toNat / 2 ^ (8 * (7 - k))))
      (onTable (hwOpen 0) tab).block.cfgHashKey).extractLsb' 0 14 ∧
    (tab = tenth hwSlot 255 →
      FirstFreeSlot (onTable (hwOpen 0) tab).block.table hwSlot 10 (BitVec.ofNat 14 (hwSlot.toNat + 9)) 255) ∧
    (tab = exhaust hwSlot 10 → AllExhausted (onTable (hwOpen 0) tab).block.table hwSlot 10) :=
  ⟨rfl, rfl, fun h => h ▸ firstFree_tenth hwSlot, fun h => h ▸ allExhausted_ten hwSlot⟩

/-- The message of 256 zero bytes, and its slot on this hardware. -/
def zeros : List Byte := List.replicate 256 0

def hwZerosSlot : Slot := (Config.kh64 zeros Config.defaultHashKey).extractLsb' 0 14

/-- An open window with MSG_LEN `n` and the buffer as reset leaves it. -/
def hwMessage (n : Word) (tab : CollisionTable) : State :=
  onBlock (hwOpen 0) fun b => { b with msgLen := n, table := tab }

theorem witness_NextIdWithHashIssuesIdentifier (tab : CollisionTable) :
    (hwMessage 257 tab).block.tsValid = true ∧ 256 < (hwMessage 257 tab).block.msgLen.toNat ∧
    (hwMessage 256 tab).block.tsValid = true ∧ (hwMessage 256 tab).block.msgLen.toNat ≤ 256 ∧
    zeros.length = (hwMessage 256 tab).block.msgLen.toNat ∧
    (∀ n < zeros.length, zeros.getD n 0 = msgByte (hwMessage 256 tab).block n) ∧
    hwZerosSlot = (Config.kh64 zeros (hwMessage 256 tab).block.cfgHashKey).extractLsb' 0 14 ∧
    (tab = tenth hwZerosSlot 255 → FirstFreeSlot (hwMessage 256 tab).block.table hwZerosSlot 10
      (BitVec.ofNat 14 (hwZerosSlot.toNat + 9)) 255) ∧
    (tab = exhaust hwZerosSlot 10 → AllExhausted (hwMessage 256 tab).block.table hwZerosSlot 10) := by
  have hl : zeros.length = 256 := List.length_replicate
  have h257 : (hwMessage 257 tab).block.msgLen.toNat = 257 := rfl
  have h256 : (hwMessage 256 tab).block.msgLen.toNat = 256 := rfl
  refine ⟨rfl, by omega, rfl, by omega, by omega, fun n hn => ?_, rfl,
    fun h => h ▸ firstFree_tenth hwZerosSlot, fun h => h ▸ allExhausted_ten hwZerosSlot⟩
  rw [List.getD_eq_getElem _ _ hn]
  exact List.getElem_replicate _

/-- A counter of 257 behind nine exhausted slots, and the ERR codes 8 and 15. -/
theorem witness_ImpossibleValuesStop :
    (0 : Slot) = (t0.kh64 [0] (onTable (openAt 0) (tenth 0 257)).block.cfgHashKey).extractLsb' 0 14 ∧
    9 < t0.probeLimit ∧
    (∀ p < 9, tableGet (onTable (openAt 0) (tenth 0 257)).block.table (BitVec.ofNat 14 ((0 : Slot).toNat + p)) =
      256) ∧
    256 < (tableGet (onTable (openAt 0) (tenth 0 257)).block.table (BitVec.ofNat 14 ((0 : Slot).toNat + 9))).toNat ∧
    (present [.read 0x004] (onBlock State.reset fun b => { b with err := 8 })).pending = .read 0x004 :: [] ∧
    8 ≤ (present [.read 0x004] (onBlock State.reset fun b => { b with err := 8 })).block.err.toNat ∧
    8 ≤ (onBlock State.reset fun b => { b with err := 15 }).block.err.toNat :=
  ⟨t0_slot _, by decide, tenth_before 0 257, by
    show 256 < (tableGet (tenth 0 257) _).toNat
    rw [tenth_at]
    decide, rfl, by decide, by decide⟩

/-- Every error condition of the list, each with the later ones of its command. -/
theorem witness_ErrorPriority :
    16383 < (hwCustom 16384 (-2)).block.argInstance.toNat ∧ (hwCustom 16383 0).block.argInstance.toNat ≤ 16383 ∧
    (timeSample (hwCustom 16383 (-2))).toInt < (epochOperand (hwCustom 16383 (-2)).block).toInt ∧
    0x3FFFFFFF8 < (timeSample (hwCustom 16383 0x3FFFFFFF8)).toInt - (epochOperand (hwCustom 16383 0).block).toInt ∧
    (hwReset 0).block.tsValid = false ∧ decode 0x7 = .error .unassignedOpcode := by decide

/-- An exhausted probe sequence for each issuing command, and a message too long. -/
theorem witness_ErrorPriority_exhausted (tab : CollisionTable) :
    256 < (hwMessage 257 tab).block.msgLen.toNat ∧ (hwMessage 0 tab).block.tsValid = true ∧
    (hwMessage 0 tab).block.msgLen.toNat ≤ 256 ∧ messageOperand (hwMessage 0 tab).block = [] ∧
    (tab = exhaust (slotHash Config.params [] Config.defaultHashKey) 10 →
      AllExhausted (hwMessage 0 tab).block.table (slotHash Config.params [] Config.defaultHashKey) 10) ∧
    (tab = exhaust (slotHash Config.params (be8 0) Config.defaultHashKey) 10 →
      AllExhausted (onTable (hwOpen 0) tab).block.table
        (slotHash Config.params (be8 0) Config.defaultHashKey) 10) := by
  have h257 : (hwMessage 257 tab).block.msgLen.toNat = 257 := rfl
  have h0 : (hwMessage 0 tab).block.msgLen.toNat = 0 := rfl
  exact ⟨by omega, rfl, by omega, rfl,
    fun h => h ▸ allExhausted_ten (slotHash Config.params [] Config.defaultHashKey),
    fun h => h ▸ allExhausted_ten (slotHash Config.params (be8 0) Config.defaultHashKey)⟩

theorem witness_FailingCommandChangesOnlyErr :
    ∃ t, exec .nextId (hwReset 0) = .next t ∧ t.block.err ≠ 0 := ⟨_, rfl, by decide⟩

theorem witness_ConfigurationWriters :
    Instr.updateTime ≠ .new ∧ Instr.updateTime ≠ .custom ∧
    ∃ t, step (present [cmdWrite 3] (hwCustom 16383 0)) = .next t ∧
      t.block.cfgInstanceId ≠ (hwCustom 16383 0).block.cfgInstanceId := ⟨by decide, by decide, _, rfl, by decide⟩

theorem witness_TsValidFallsOnlyAtReset :
    ∃ t, step (present [.reset] (hwOpen 0)) = .next t ∧ (hwOpen 0).block.tsValid = true ∧ t.block.tsValid = false :=
  ⟨_, rfl, rfl, rfl⟩

/-- An issue clears bit 63 of an identifier register that had it set. -/
theorem witness_IdRegisterWriters :
    ∃ t, step (present [cmdWrite 5] (onBlock (hwOpen 0) fun b => { b with idReg := BitVec.allOnes 64 })) = .next t ∧
      t.block.idReg ≠ BitVec.allOnes 64 := by
  refine ⟨_, rfl, fun h => ?_⟩
  have h63 := congrArg (fun v : DWord => v.getLsbD 63) h
  simp only [commit_ok_block, setErr_idReg, recordIssue, pack_getLsbD] at h63
  exact absurd h63 (by decide)

theorem witness_WindowStateWriters :
    (∃ t, step (issuedOnce [.read 0x004]) = .next t) ∧ (∃ t, step (issuedOnce [.reset]) = .next t) ∧
    ∃ t, step (present [cmdWrite 5] (hwOpen 0)) = .next t := ⟨⟨_, rfl⟩, ⟨_, rfl⟩, _, rfl⟩

theorem witness_TimeLineGivesNextSample :
    (present [.time 7] (hwReset 0)).pending = .time 7 :: [] ∧ State.reset.nextTime = none := ⟨rfl, rfl⟩

/-- Two states with the same block and the same sample. -/
theorem witness_CommandDependsOnBlockAndSample :
    (present [.reset] (hwReset 0)).block = (hwReset 0).block ∧
    timeSample (present [.reset] (hwReset 0)) = timeSample (hwReset 0) ∧
    ∃ t, exec .updateTime (hwReset 0) = .next t := ⟨rfl, rfl, _, rfl⟩

/-- Byte 0 alone is hashed; bytes 1 and 255 differ. -/
def hwOneByte (m : Memory) : State := onBlock (hwOpen 0) fun b => { b with msgLen := 1, msg := m }

theorem witness_BytesPastMsgLenDoNotMatter :
    (∀ n < (hwOneByte [(0, 5), (1, 6)]).block.msgLen.toNat,
      sparseGet [(0, (5 : Byte)), (255, 9)] n = msgByte (hwOneByte [(0, 5), (1, 6)]).block n) ∧
    ∃ t, exec .nextIdWithHash (hwOneByte [(0, 5), (1, 6)]) = .next t := by
  refine ⟨fun n hn => ?_, _, rfl⟩
  have h1 : (hwOneByte [(0, 5), (1, 6)]).block.msgLen.toNat = 1 := rfl
  have : n = 0 := by omega
  subst this
  rfl

theorem witness_StepKeepsInvariant :
    Inv (issuedOnce [cmdWrite 1]) ∧ ∃ t, step (issuedOnce [cmdWrite 1]) = .next t :=
  ⟨witness_Inv _, _, rfl⟩

theorem witness_WindowCountIsBounded : Inv (issuedOnce []) := witness_Inv _

theorem witness_MachineNeverStops :
    Inv (issuedOnce [.read 0xFFC]) ∧ (issuedOnce [.read 0xFFC]).pending = .read 0xFFC :: [] ∧
    (HostAction.read 0xFFC).wf = true := ⟨witness_Inv _, rfl, by decide⟩

theorem witness_SequenceValuesAreDistinct :
    (255 : Counter).toNat < 256 ∧
    sequenceField t0.toParams (hwOpen 0).block 255 = sequenceField t0.toParams (hwOpen 0).block 255 :=
  ⟨by decide, rfl⟩

/-- NEXT_ID issues wherever no slot is exhausted. -/
theorem nextId_issues {s : State} (hv : s.block.tsValid = true) (hc : ∀ x, (tableGet s.block.table x).toNat < 256) :
    ∃ slot, exec .nextId s = .next (commit s (.ok
      (recordIssue Config.params slot (tableGet s.block.table slot) s.block))) := by
  have he : exec .nextId s = issue Config.params (be8 s.block.wcount) s := by
    simp [exec, execNextId, execNextIdWith, hv]
  have hne : ∀ x, tableGet s.block.table x ≠ 256#9 := fun x h => by
    have := hc x
    rw [h] at this
    exact absurd this (by decide)
  rw [he]
  rcases issue_cases Config.params (be8 s.block.wcount) s with ⟨j, -, -, -, h⟩ | ⟨h, -⟩ | ⟨x, h, -⟩
  · exact ⟨_, h⟩
  · exact absurd (h 0 (by decide)) (hne _)
  · exact absurd (hc x) (by omega)

/-- Two NEXT_IDs of one window, one after the other. -/
theorem witness_IdentifiersDistinctWithinWindow :
    ∃ s t v : State, Issued s t ∧ SameWindow t t ∧ Issued t v := by
  obtain ⟨slot, h1⟩ := nextId_issues (s := present [asmCommand .nextId] (hwOpen 0)) rfl
    (fun x => by show (tableGet [] x).toNat < 256; rw [tableGet_nil]; decide)
  obtain ⟨slot', h2⟩ := nextId_issues
    (s := { commit (present [asmCommand .nextId] (hwOpen 0)) (.ok (recordIssue Config.params slot
      (tableGet [] slot) (hwOpen 0).block)) with pending := [] }) rfl
    (fun x => by
      show (tableGet (tableSet [] slot (tableGet [] slot + 1)) x).toNat < 256
      rw [tableGet_tableSet, tableGet_nil, tableGet_nil]
      split <;> decide)
  exact ⟨present [asmCommand .nextId, asmCommand .nextId] (hwOpen 0), _, _,
    ⟨.nextId, [asmCommand .nextId], .inl rfl, rfl, h1, rfl⟩, .refl _, ⟨.nextId, [], .inl rfl, rfl, h2, rfl⟩⟩

theorem witness_SaturationBound :
    t0.probeLimit ≤ 16384 ∧ (openAt 0).block.tsValid = true ∧ (openAt 0).block.msgLen.toNat ≤ t0.msgMax ∧
    (0 : Slot) = (t0.kh64 (messageOperand (openAt 0).block) (openAt 0).block.cfgHashKey).extractLsb' 0 14 ∧
    (∀ p < t0.probeLimit, tableGet (openAt 0).block.table (BitVec.ofNat 14 ((0 : Slot).toNat + p)) = 0) ∧
    2559 < 256 * t0.probeLimit ∧ 256 * t0.probeLimit ≤ 2560 :=
  ⟨by decide, rfl, by decide, rfl, fun _ _ => rfl, by decide, by decide⟩

/-- The window NEW opens at bucket 0, refreshed at the last second of it. -/
theorem update_same_bucket :
    exec .updateTime (hwOpen 7) = .next (commit (afterSample (hwOpen 7)) (.ok (hwOpen 7).block)) := by
  have hb : timeBits Config.params 1719792000 (timeSample (hwOpen 7)) = .ok (p31 Config.params 0) := rfl
  show Host.Outcome.next _ = _
  simp only [Config.hardware_toParams]
  rw [show (hwOpen 7).block.cfgEpoch = 1719792000 from rfl, hb]
  simp only []
  rw [if_neg]
  intro h
  rcases h with h | h
  · exact absurd h (by decide)
  · exact h rfl

theorem witness_RefreshIsIdempotent :
    ∃ t u, exec .updateTime (hwOpen 7) = .next t ∧ t.block.err = 0 ∧ (hwOpen 7).block = t.block ∧
      exec .updateTime (hwOpen 7) = .next u ∧ u.block.err = 0 ∧
      ((timeSample (hwOpen 7)).toInt - (hwOpen 7).block.cfgEpoch.toInt) / 8 = 0 :=
  ⟨_, _, update_same_bucket, rfl, rfl, update_same_bucket, rfl, by decide⟩

/-- A refresh in the fresh state, and one whose bucket is not the stored one. -/
theorem witness_RefreshIsIdempotent_rollover :
    (onBlock (hwReset 0) fun b => { b with tsBits := p31 Config.params 1 }).block.tsBits = p31 Config.params 1 ∧
    (((1 : BitVec 31).toNat : Int) ≠
      ((timeSample (hwReset 0)).toInt - (hwReset 0).block.cfgEpoch.toInt) / 8) ∧
    ∃ t, exec .updateTime (onBlock (hwReset 0) fun b => { b with tsBits := p31 Config.params 1 }) = .next t ∧
      t.block.err = 0 := ⟨rfl, by decide, _, rfl, rfl⟩

theorem witness_RolloverExactlyOnBucketChange :
    (hwOpen 7).block.tsValid = true ∧ (hwOpen 7).block.tsBits = p31 Config.params 0 ∧
    quantize (hwOpen 7).block.cfgEpoch (timeSample (hwOpen 7)) = .ok 0 ∧
    quantize (hwOpen 8).block.cfgEpoch (timeSample (hwOpen 8)) = .ok 1 ∧ (1 : BitVec 31) ≠ 0 ∧
    (∃ t, exec .updateTime (hwOpen 7) = .next t) ∧ ∃ t, exec .updateTime (hwOpen 8) = .next t :=
  ⟨rfl, rfl, rfl, rfl, by decide, ⟨_, rfl⟩, _, rfl⟩

/-- Windows in the buckets 0 and 1 that each issue. -/
theorem witness_IdentifiersDifferAcrossBuckets :
    ∃ s t s' t' : State, s.block.tsBits = p31 Config.params 0 ∧ s'.block.tsBits = p31 Config.params 1 ∧
      (0 : BitVec 31) ≠ 1 ∧ exec .nextId s = .next t ∧ exec .nextId s' = .next t' ∧ t.block.err = 0 ∧
      t'.block.err = 0 :=
  ⟨hwOpen 0, _, onBlock (hwOpen 0) fun b => { b with tsBits := p31 Config.params 1 }, _, rfl, rfl, by decide,
    rfl, rfl, rfl, rfl⟩

theorem witness_CounterKeyChangesSequenceOnly :
    (43 : Byte) ≠ (hwOpen 0).block.cfgCounterKey ∧ ∃ t, exec .nextId (hwOpen 0) = .next t ∧ t.block.err = 0 :=
  ⟨by decide, _, rfl, rfl⟩

theorem witness_InstanceIdDoesNotReachIdentifier :
    ∃ t, exec .nextIdWithHash (hwOpen 0) = .next t ∧ t.block.err = 0 := ⟨_, rfl, rfl⟩

/-- The fields after NEW and NEXT_ID at the epoch. -/
theorem witness_RevisitedBucketRepeatsIdentifier :
    ∃ t u v w r : State, exec .new (hwReset 0) = .next t ∧ exec .nextId t = .next u ∧ r.block = u.block ∧
      exec .new r = .next v ∧ t.block.err = 0 ∧ v.block.err = 0 ∧
      ((timeSample r).toInt - 1719792000) / 8 = ((timeSample (hwReset 0)).toInt - 1719792000) / 8 ∧
      exec .nextId v = .next w :=
  ⟨_, _, _, _, { hwReset 7 with block := _ }, rfl, rfl, rfl, rfl, rfl, rfl, by decide, rfl⟩

theorem witness_HiddenStateIsNotReadable :
    ∃ t, (present [.read 0x014] (hwOpen 0)).pending = .read 0x014 :: [] ∧
      step (present [.read 0x014] (hwOpen 0)) = .next t := ⟨_, rfl, rfl⟩

theorem witness_UpdateTimeBootsAsNew :
    (hwReset 0).block.tsValid = false ∧ (hwReset 0).block.cfgHashKey = Config.defaultHashKey ∧
    (hwReset 0).block.cfgCounterKey = 42 ∧ (hwReset 0).block.cfgEpoch = 1719792000 ∧
    (∃ t, exec .new (hwReset 0) = .next t) ∧ ∃ u, exec .updateTime (hwReset 0) = .next u :=
  ⟨rfl, rfl, rfl, rfl, ⟨_, rfl⟩, _, rfl⟩

end Sys2Proof.Tests
end

section
/-! The block a command answers, as a function of the block it starts from and the time sample
(00_scope.md R12, 10_state.md R35, 60_exceptions.md R212). -/

namespace Sys2Proof.Machine

/-- The block an outcome leaves, if it is a next state. -/
def answeredBlock : Host.Outcome State Fault Refusal → Option Block
  | .next t => some t.block
  | .fault _ => none
  | .refused _ => none

@[simp] theorem answeredBlock_next (t : State) : answeredBlock (.next t) = some t.block := rfl

theorem answeredBlock_eq_some {o : Host.Outcome State Fault Refusal} {b : Block} :
    answeredBlock o = some b ↔ ∃ t, o = .next t ∧ t.block = b := by
  cases o <;> simp [answeredBlock]

section SameBlock

variable {s s' : State}

/-- Ending a command reads nothing outside the block (R201). -/
theorem answeredBlock_commit_congr (hb : s'.block = s.block) (r : Except ErrCode Block) :
    answeredBlock (.next (commit s' r)) = answeredBlock (.next (commit s r)) := by
  cases r with
  | ok b => rfl
  | error e => simp [hb]

/-- Taking a sample leaves equal blocks equal (R212). -/
theorem afterSample_block_congr (hb : s'.block = s.block) :
    (afterSample s').block = (afterSample s).block := hb

/-- An issue of the same message depends on the block alone (R153). -/
theorem answeredBlock_issue_congr (hb : s'.block = s.block) (P : Params) (m : List Byte) :
    answeredBlock (issue P m s') = answeredBlock (issue P m s) := by
  unfold issue
  rw [hb]
  cases probe s.block.table P.probeLimit (slotHash P m s.block.cfgHashKey) with
  | found slot c => rfl
  | exhausted => exact answeredBlock_commit_congr hb _
  | corrupt slot => rfl

theorem answeredBlock_execSetInstanceId_congr (hb : s'.block = s.block) :
    answeredBlock (execSetInstanceId s') = answeredBlock (execSetInstanceId s) := by
  unfold execSetInstanceId
  rw [hb]
  split <;> exact answeredBlock_commit_congr hb _

theorem answeredBlock_execNextIdWith_congr (hb : s'.block = s.block) (P : Params) :
    answeredBlock (execNextIdWith P s') = answeredBlock (execNextIdWith P s) := by
  unfold execNextIdWith
  rw [hb]
  split
  · exact answeredBlock_commit_congr hb _
  · exact answeredBlock_issue_congr hb P _

theorem answeredBlock_execNextIdWithHashWith_congr (hb : s'.block = s.block) (P : Params) :
    answeredBlock (execNextIdWithHashWith P s') = answeredBlock (execNextIdWithHashWith P s) := by
  unfold execNextIdWithHashWith
  rw [hb]
  split
  · exact answeredBlock_commit_congr hb _
  · split
    · exact answeredBlock_commit_congr hb _
    · exact answeredBlock_issue_congr hb P _

theorem answeredBlock_execNewWith_congr (hb : s'.block = s.block) (ht : timeSample s' = timeSample s)
    (P : Params) : answeredBlock (execNewWith P s') = answeredBlock (execNewWith P s) := by
  unfold execNewWith
  rw [hb, ht]
  exact answeredBlock_commit_congr (afterSample_block_congr hb) _

theorem answeredBlock_execCustomWith_congr (hb : s'.block = s.block)
    (ht : timeSample s' = timeSample s) (P : Params) :
    answeredBlock (execCustomWith P s') = answeredBlock (execCustomWith P s) := by
  unfold execCustomWith
  rw [hb, ht]
  split
  · exact answeredBlock_commit_congr hb _
  · exact answeredBlock_commit_congr (afterSample_block_congr hb) _

theorem answeredBlock_execUpdateTimeWith_congr (hb : s'.block = s.block)
    (ht : timeSample s' = timeSample s) (P : Params) :
    answeredBlock (execUpdateTimeWith P s') = answeredBlock (execUpdateTimeWith P s) := by
  unfold execUpdateTimeWith
  rw [hb, ht]
  exact answeredBlock_commit_congr (afterSample_block_congr hb) _

/-- Two states that agree in the block, and in the time sample where the command reads it, answer the
same block, or both stop. -/
theorem answeredBlock_exec_congr (i : Instr) (hb : s'.block = s.block)
    (ht : i = .setInstanceId ∨ i = .nextId ∨ i = .nextIdWithHash ∨ timeSample s' = timeSample s) :
    answeredBlock (exec i s') = answeredBlock (exec i s) := by
  cases i with
  | new => exact answeredBlock_execNewWith_congr hb (by simpa using ht) _
  | custom => exact answeredBlock_execCustomWith_congr hb (by simpa using ht) _
  | setInstanceId => exact answeredBlock_execSetInstanceId_congr hb
  | updateTime => exact answeredBlock_execUpdateTimeWith_congr hb (by simpa using ht) _
  | nextId => exact answeredBlock_execNextIdWith_congr hb _
  | nextIdWithHash => exact answeredBlock_execNextIdWithHashWith_congr hb _

end SameBlock

/-- Settles O43: the answered block is a function of the block and, where it is read, the time sample. -/
theorem commandDependsOnBlockAndSample : Obligations.CommandDependsOnBlockAndSample := by
  unfold Obligations.CommandDependsOnBlockAndSample
  intro i s s' t hb ht h
  have hsame : answeredBlock (exec i s') = some t.block := by
    rw [answeredBlock_exec_congr i hb ht, h, answeredBlock_next]
  exact answeredBlock_eq_some.mp hsame

end Sys2Proof.Machine
end

section
/-! What a read of the bus answers (20_memory.md R60, R63, R70), and the two values no run produces where
they are read (93_implementation_defined.md section 2). -/

namespace Sys2Proof.Machine

section Reads

variable {s t : State} {off : Offset} {rest : List HostAction}

/-- A read of an aligned offset is a bus read (R60). -/
theorem step_read (hp : s.pending = .read off :: rest) (ha : off.toNat % 4 = 0) :
    step s = busRead Config.params off { s with pending := rest } := by
  have ha' : Offset.aligned off = true := by simpa [Offset.aligned] using ha
  simp [step_of_pending_cons hp, transact, ha']

/-- A read answers exactly if its offset is aligned and the register there has a value: the value goes
to the host and nothing else changes (R63, R70). -/
theorem step_read_eq_next (hp : s.pending = .read off :: rest) :
    step s = .next t ↔ off.toNat % 4 = 0 ∧ ∃ v, readReg s.block (regAt 256 off) = .ok v ∧
      t = { s with pending := rest, responses := v :: s.responses } := by
  by_cases ha : off.toNat % 4 = 0
  · rw [step_read hp ha, busRead, Config.params_msgMax]
    cases readReg s.block (regAt 256 off) <;> simp [ha, eq_comm]
  · have ha' : Offset.aligned off = false := by simpa [Offset.aligned] using ha
    simp [step_of_pending_cons hp, transact, ha', ha]

end Reads

/-- Every register of a block with the reset values reads 0 (R36, R62, R63). -/
theorem readReg_of_holdsResetValues {b : Block} (h : HoldsResetValues b) (r : Reg) :
    readReg b r = .ok 0 := by
  obtain ⟨herr, hts, hbits, -, hwc, hid, -, -, -, -, h0, h1, h2, h3, h4, h5, h6, h7, hlen, hmsg⟩ := h
  cases r with
  | status => simp [readReg, statusWord, herr, hts]
  | msgWord w => simp [readReg, msgWordRead, hmsg, wordOfLanes]
  | idLo => simp [readReg, lowWord, hid]
  | idHi => simp [readReg, highWord, hid]
  | wcountLo => simp [readReg, lowWord, hwc]
  | wcountHi => simp [readReg, highWord, hwc]
  | _ => simp [readReg, *]

/-- No register shows the configuration or the collision table (R24, R27). -/
theorem readReg_hidden (b : Block) (n : BitVec 14) (k : Key) (c : Byte) (ep : DWord)
    (tab : CollisionTable) (r : Reg) :
    readReg { b with cfgInstanceId := n, cfgHashKey := k, cfgCounterKey := c, cfgEpoch := ep, table := tab } r =
      readReg b r := by
  cases r <;> rfl

/-- The probe loop stops at the first slot that does not hold 256, if its counter is one no run
produces (#11). -/
theorem probe_corrupt {t : CollisionTable} {s : Slot} {n j : Nat} (hj : j < n)
    (hbefore : ∀ p < j, tableGet t (slotAt s p) = 256#9) (hc : 256 < (tableGet t (slotAt s j)).toNat) :
    probe t n s = .corrupt (slotAt s j) := by
  induction n generalizing s j with
  | zero => omega
  | succ n ih =>
    cases j with
    | zero =>
      rw [slotAt_zero] at hc ⊢
      have hne : tableGet t s ≠ 256 := by rintro h; rw [h] at hc; exact absurd hc (by decide)
      rw [probe, if_neg hne, if_pos hc]
    | succ j =>
      have h0 : tableGet t s = 256 := by simpa using hbefore 0 (by omega)
      rw [probe, if_pos h0, slotAt_succ]
      refine ih (by omega) (fun p hp => ?_) (slotAt_succ s j ▸ hc)
      rw [← slotAt_succ]
      exact hbefore (p + 1) (by omega)

/-- Settles O7: every register reads 0. -/
theorem everyOffsetReadsZeroAfterReset : Obligations.EveryOffsetReadsZeroAfterReset := by
  unfold Obligations.EveryOffsetReadsZeroAfterReset
  intro s rest off hb ha hp
  exact (step_read_eq_next hp).mpr ⟨ha, 0, readReg_of_holdsResetValues hb _, rfl⟩

/-- Settles O58: the answer is a function of the registers a read can show. -/
theorem hiddenStateIsNotReadable : Obligations.HiddenStateIsNotReadable := by
  unfold Obligations.HiddenStateIsNotReadable
  intro s t off rest n k c ep tab hp hst
  obtain ⟨ha, v, hv, rfl⟩ := (step_read_eq_next hp).mp hst
  refine ⟨_, (step_read_eq_next (rest := rest) ?_).mpr ⟨ha, v, ?_, rfl⟩, rfl⟩
  · exact hp
  · rw [readReg_hidden, hv]

/-- Settles O32: the probe loop ends at the slot, and STATUS has no value to answer. -/
theorem impossibleValuesStop : Obligations.ImpossibleValuesStop := by
  unfold Obligations.ImpossibleValuesStop
  refine ⟨fun P m s s0 j hs0 hj hbefore hc => ?_, fun s rest hp herr => ?_⟩
  · simp only [ofNat_add_eq_slotAt] at hbefore hc ⊢
    have hprobe := probe_corrupt hj hbefore hc
    subst hs0
    rw [issue, slotHash, hprobe]
  · have hread : readReg s.block (regAt 256 0x004) = .error (.reservedErrorCode s.block.err) :=
      if_pos (by omega)
    rw [step_read hp rfl, busRead, Config.params_msgMax, hread]

end Sys2Proof.Machine
end

section
/-! Who writes the state of the engine (10_state.md R23 to R31): the window, with the result register, and
the configuration. -/

namespace Sys2Proof.Machine

/-- The two fields of a command word make it up (R90). -/
theorem word_toNat_eq_fields (v : Word) :
    v.toNat = 16 * (commandRsvd v).toNat + (commandOpc v).toNat := by
  have := v.isLt
  simp [commandRsvd, commandOpc, Nat.shiftRight_eq_div_pow]
  omega

/-- A word that decodes to a command is that command's encoding (R92, R95). -/
theorem eq_encode_of_decode {v : Word} {i : Instr} (h : decode v = .ok i) : v = encode i := by
  have hv := word_toNat_eq_fields v
  simp only [decode] at h
  split at h
  · cases h
  · next hr =>
    rw [not_not.mp hr] at hv
    split at h <;> cases h <;> next ho => exact BitVec.eq_of_toNat_eq (by rw [hv, ho]; rfl)

/-- `b'` has the window state and the result register of `b` (R25 to R29). -/
structure WindowKept (b b' : Block) : Prop where
  tsValid : b'.tsValid = b.tsValid
  tsBits : b'.tsBits = b.tsBits
  table : b'.table = b.table
  wcount : b'.wcount = b.wcount
  idReg : b'.idReg = b.idReg

/-- `b'` has the configuration registers of `b` (R24). -/
structure ConfigKept (b b' : Block) : Prop where
  instanceId : b'.cfgInstanceId = b.cfgInstanceId
  hashKey : b'.cfgHashKey = b.cfgHashKey
  counterKey : b'.cfgCounterKey = b.cfgCounterKey
  epoch : b'.cfgEpoch = b.cfgEpoch

theorem WindowKept.refl (b : Block) : WindowKept b b := ⟨rfl, rfl, rfl, rfl, rfl⟩

theorem ConfigKept.refl (b : Block) : ConfigKept b b := ⟨rfl, rfl, rfl, rfl⟩

theorem windowKept_setErr (e : ErrCode) (b : Block) : WindowKept b (setErr e b) := ⟨rfl, rfl, rfl, rfl, rfl⟩

theorem configKept_setErr (e : ErrCode) (b : Block) : ConfigKept b (setErr e b) := ⟨rfl, rfl, rfl, rfl⟩

theorem windowKept_writeReg (v : Word) (b : Block) (r : Reg) : WindowKept b (writeReg v b r) := by
  rw [writeReg_frame]
  exact ⟨rfl, rfl, rfl, rfl, rfl⟩

theorem configKept_writeReg (v : Word) (b : Block) (r : Reg) : ConfigKept b (writeReg v b r) := by
  rw [writeReg_frame]
  exact ⟨rfl, rfl, rfl, rfl⟩

/-! ### What a command leaves -/

/-- A failing command changes ERR alone, whether or not it took a time sample (R201). -/
theorem commit_error_block_of_sampled {s s' : State} (hs : s' = s ∨ s' = afterSample s) (e : ErrCode) :
    (commit s' (.error e)).block = setErr e s.block := by
  rcases hs with rfl | rfl <;> rfl

namespace CommandEffect

variable {i : Instr} {s t : State}

/-- A command failed, and changed ERR alone, or it ended with ERR 0 (R150, R201). -/
theorem failed_or_ok (h : CommandEffect i s t) : (∃ e, t.block = setErr e s.block) ∨ t.block.err = 0 := by
  cases h with
  | failed he hs => exact .inl ⟨_, commit_error_block_of_sampled hs _⟩
  | _ => exact .inr rfl

/-- ERR holds the number of a code after every command (R200). -/
theorem err_eq (h : CommandEffect i s t) : ∃ e, t.block.err = errBits e := by
  rcases h.failed_or_ok with ⟨e, hb⟩ | h0
  · exact ⟨e, by rw [hb, setErr_err]⟩
  · exact ⟨.ok, h0⟩

/-- No command writes an argument register, the message buffer or what stands outside the block, but for
the time port (R30, R31). -/
theorem frame (h : CommandEffect i s t) :
    t.block.argInstance = s.block.argInstance ∧ t.block.argCkey = s.block.argCkey ∧
    t.block.argEpochLo = s.block.argEpochLo ∧ t.block.argEpochHi = s.block.argEpochHi ∧
    t.block.argKey0 = s.block.argKey0 ∧ t.block.argKey1 = s.block.argKey1 ∧
    t.block.argKey2 = s.block.argKey2 ∧ t.block.argKey3 = s.block.argKey3 ∧
    t.block.msgLen = s.block.msgLen ∧ t.block.msg = s.block.msg ∧
    t.pending = s.pending ∧ t.responses = s.responses := by
  cases h with
  | failed he hs => rcases hs with rfl | rfl <;> simp
  | _ => simp

/-- Only NEW and CUSTOM write the key, the counter key and the epoch, and besides them only
SET_INSTANCE_ID the register it is named after (R23, R24). -/
theorem config_kept (h : CommandEffect i s t) (hn : i ≠ .new) (hc : i ≠ .custom) :
    t.block.cfgHashKey = s.block.cfgHashKey ∧ t.block.cfgCounterKey = s.block.cfgCounterKey ∧
    t.block.cfgEpoch = s.block.cfgEpoch ∧
    (i ≠ .setInstanceId → t.block.cfgInstanceId = s.block.cfgInstanceId) := by
  cases h with
  | failed he hs => simp [commit_error_block_of_sampled hs]
  | newWindow => exact absurd rfl hn
  | customWindow => exact absurd rfl hc
  | instanceSet => simp
  | rolledOver => simp
  | sameBucket => simp
  | issued => simp

/-- What a command does to the window: it leaves it; or it starts one, from a block that has the result
register and the message of the old one; or it issues an identifier (R152, R153). -/
theorem window_cases (h : CommandEffect i s t) :
    WindowKept s.block t.block ∨
    ((i = .new ∨ i = .custom ∨ i = .updateTime) ∧ ∃ ts b, t.block = setErr .ok (startWindow ts b) ∧
      b.idReg = s.block.idReg ∧ b.msg = s.block.msg) ∨
    ((i = .nextId ∨ i = .nextIdWithHash) ∧ s.block.tsValid = true ∧
      ∃ slot, (tableGet s.block.table slot).toNat < 256 ∧
        t.block = setErr .ok (recordIssue Config.params slot (tableGet s.block.table slot) s.block)) := by
  cases h with
  | failed he hs =>
    rw [commit_error_block_of_sampled hs]
    exact .inl (windowKept_setErr _ _)
  | newWindow => exact .inr (.inl ⟨.inl rfl, _, _, rfl, rfl, rfl⟩)
  | customWindow => exact .inr (.inl ⟨.inr (.inl rfl), _, _, rfl, rfl, rfl⟩)
  | instanceSet => exact .inl ⟨rfl, rfl, rfl, rfl, rfl⟩
  | rolledOver => exact .inr (.inl ⟨.inr (.inr rfl), _, _, rfl, rfl, rfl⟩)
  | sameBucket => exact .inl (windowKept_setErr _ _)
  | issued hi hv hc => exact .inr (.inr ⟨hi, hv, _, hc, rfl⟩)

end CommandEffect

/-! ### What a step leaves -/

/-- A step leaves the window, the result register and the configuration; or it took the reset input; or
it ran a command (R71, R230). -/
theorem step_engine_cases {s t : State} (h : step s = .next t) :
    (WindowKept s.block t.block ∧ ConfigKept s.block t.block) ∨
    (∃ rest, s.pending = .reset :: rest ∧ t.block = State.reset.block) ∨
    ∃ i rest, s.pending = .write 0x000 (encode i) :: rest ∧ CommandEffect i { s with pending := rest } t := by
  rcases step_cases h with ⟨-, rfl⟩ | ⟨a, rest, hp, hact⟩
  · exact .inl ⟨.refl _, .refl _⟩
  · rcases hact with ⟨off, v, rfl, rfl⟩ | ⟨off, v, rfl, -, rfl⟩ | ⟨v, i, rfl, hd, he⟩ |
      ⟨v, e, rfl, -, rfl⟩ | ⟨now, rfl, rfl⟩ | ⟨rfl, rfl⟩
    · exact .inl ⟨.refl _, .refl _⟩
    · exact .inl ⟨windowKept_writeReg _ _ _, configKept_writeReg _ _ _⟩
    · exact .inr (.inr ⟨i, rest, eq_encode_of_decode hd ▸ hp, he⟩)
    · exact .inl ⟨windowKept_setErr .illegalCommand _, configKept_setErr .illegalCommand _⟩
    · exact .inl ⟨.refl _, .refl _⟩
    · exact .inr (.inl ⟨rest, hp, rfl⟩)

/-- An issue counts its slot up by one (R153). -/
theorem counter_add_one_toNat {c : Counter} (h : c.toNat < 256) : (c + 1).toNat = c.toNat + 1 := by
  rw [BitVec.toNat_add]
  exact Nat.mod_eq_of_lt (by simp; omega)

/-- Settles O36: a command's effect leaves them all. -/
theorem commandsLeaveArgumentsAndMessage : Obligations.CommandsLeaveArgumentsAndMessage := by
  unfold Obligations.CommandsLeaveArgumentsAndMessage
  intro i s t h
  obtain ⟨h0, h1, h2, h3, h4, h5, h6, h7, hlen, hmsg, hp, hr⟩ := (exec_effect h).frame
  exact ⟨h0, h1, h2, h3, h4, h5, h6, h7, hlen, fun a => by rw [msgByte, hmsg, msgByte], hp, hr⟩

/-- Settles O37: a command that changes the configuration did not fail and is one of the three. -/
theorem configurationWriters : Obligations.ConfigurationWriters := by
  unfold Obligations.ConfigurationWriters
  refine fun s t => ⟨fun i hn hc h => (exec_effect h).config_kept hn hc, fun h hchange => ?_⟩
  have hlost : ¬ ConfigKept s.block t.block := fun hk => by
    simp [hk.instanceId, hk.hashKey, hk.counterKey, hk.epoch] at hchange
  rcases step_engine_cases h with ⟨-, hk⟩ | ⟨rest, hp, -⟩ | ⟨i, rest, hp, he⟩
  · exact absurd hk hlost
  · exact ⟨rest, .inl hp⟩
  · have hok : t.block.err = 0 := he.failed_or_ok.resolve_left fun ⟨e, hb⟩ =>
      hlost (hb ▸ configKept_setErr e s.block)
    have hkept (hn : i ≠ .new) (hc : i ≠ .custom) (hs : i ≠ .setInstanceId) : False := by
      obtain ⟨hkey, hckey, hepoch, hinst⟩ := he.config_kept hn hc
      exact hlost ⟨hinst hs, hkey, hckey, hepoch⟩
    refine ⟨rest, .inr ⟨encode i, hp, ?_, hok⟩⟩
    cases i with
    | new => exact .inl rfl
    | custom => exact .inr (.inl rfl)
    | setInstanceId => exact .inr (.inr rfl)
    | _ => exact (hkept nofun nofun nofun).elim

/-- Settles O38: a command keeps ts_valid, sets it, or needs it set. -/
theorem tsValidFallsOnlyAtReset : Obligations.TsValidFallsOnlyAtReset := by
  unfold Obligations.TsValidFallsOnlyAtReset
  intro s t h hs ht
  have hlost : ¬ WindowKept s.block t.block := fun hk => by simp [hk.tsValid, hs] at ht
  rcases step_engine_cases h with ⟨hk, -⟩ | ⟨rest, hp, -⟩ | ⟨i, rest, hp, he⟩
  · exact absurd hk hlost
  · exact ⟨rest, hp⟩
  · rcases he.window_cases with hk | ⟨-, ts, b, hb, -, -⟩ | ⟨-, hv, slot, -, hb⟩
    · exact absurd hk hlost
    · simp [hb] at ht
    · simp [hb, hs] at ht

/-- Settles O39: of the commands only an issue writes the result register. -/
theorem idRegisterWriters : Obligations.IdRegisterWriters := by
  unfold Obligations.IdRegisterWriters
  intro s t h hchange
  rcases step_engine_cases h with ⟨hk, -⟩ | ⟨rest, hp, -⟩ | ⟨i, rest, hp, he⟩
  · exact absurd hk.idReg hchange
  · exact ⟨rest, .inl hp⟩
  · rcases he.window_cases with hk | ⟨-, ts, b, hb, hid, -⟩ | ⟨hi, -, slot, -, hb⟩
    · exact absurd hk.idReg hchange
    · exact absurd (by rw [hb]; exact hid) hchange
    · refine ⟨rest, .inr ⟨encode i, hp, ?_, by rw [hb]; rfl⟩⟩
      exact hi.imp (congrArg encode) (congrArg encode)

/-- Settles O40: the three things a command can do to the window, and reset. -/
theorem windowStateWriters : Obligations.WindowStateWriters := by
  unfold Obligations.WindowStateWriters
  intro s t h
  have hkept (hk : WindowKept s.block t.block) :
      t.block.tsBits = s.block.tsBits ∧ (∀ x, tableGet t.block.table x = tableGet s.block.table x) ∧
      t.block.wcount = s.block.wcount ∧ t.block.tsValid = s.block.tsValid :=
    ⟨hk.tsBits, fun x => by rw [hk.table], hk.wcount, hk.tsValid⟩
  rcases step_engine_cases h with ⟨hk, -⟩ | ⟨rest, hp, hb⟩ | ⟨i, rest, hp, he⟩
  · exact .inl (hkept hk)
  · exact .inr (.inl ⟨fun x => by rw [hb]; rfl, by rw [hb]; rfl, rest, .inl hp⟩)
  · rcases he.window_cases with hk | ⟨hi, ts, b, hb, -, -⟩ | ⟨hi, hv, slot, hc, hb⟩
    · exact .inl (hkept hk)
    · have hw : encode i = 1 ∨ encode i = 2 ∨ encode i = 4 :=
        hi.imp (congrArg encode) (Or.imp (congrArg encode) (congrArg encode))
      exact .inr (.inl ⟨fun x => by rw [hb]; rfl, by rw [hb]; rfl, rest,
        .inr ⟨_, hp, hw, by rw [hb]; rfl, by rw [hb]; rfl⟩⟩)
    · have hw : encode i = 5 ∨ encode i = 6 := hi.imp (congrArg encode) (congrArg encode)
      refine .inr (.inr ⟨by rw [hb]; rfl, by rw [hb]; exact hv, by rw [hb]; rfl, slot, hc, ?_, ?_,
        _, rest, hp, hw, by rw [hb]; rfl⟩)
      · simpa [hb] using counter_add_one_toNat hc
      · intro x hx
        simp [hb, hx]

end Sys2Proof.Machine
end

section
/-! The invariant (10_state.md R34): that it holds at reset, that every operation on the block keeps it,
and that every step does. -/

namespace Sys2Proof.Machine

/-! ### The collision table -/

/-- The sum of a table of counters at most 256 (R28, R34 (a)). -/
theorem tableTotal_le {t : CollisionTable} (h : ∀ s : Slot, (tableGet t s).toNat ≤ 256) :
    tableTotal t ≤ 4194304 := by
  have hle (s : Fin 16384) : (sparseGet t s.val).toNat ≤ 256 := by
    have hs := h (BitVec.ofNat 14 s.val)
    rwa [tableGet, BitVec.toNat_ofNat, Nat.mod_eq_of_lt s.isLt] at hs
  calc tableTotal t ≤ ∑ _s : Fin 16384, 256 := Finset.sum_le_sum fun s _ => hle s
    _ = 4194304 := by simp

/-- Counting a slot up counts the sum up (R28, R34 (b)). -/
theorem tableTotal_count_up {t : CollisionTable} {slot : Slot} (hc : (tableGet t slot).toNat < 256) :
    tableTotal (tableSet t slot (tableGet t slot + 1)) = tableTotal t + 1 := by
  have := tableTotal_set t slot (tableGet t slot + 1)
  rw [counter_add_one_toNat hc] at this
  omega

/-- No error code is above 7 (R200). -/
theorem errBits_toNat_le (e : ErrCode) : (errBits e).toNat ≤ 7 := by
  cases e <;> decide

/-- Bit 63 of a packed identifier is 0 (R112). -/
theorem pack_topBit (h : BitVec 16) (t : BitVec 32) (i : BitVec 16) (q : BitVec 8) :
    (pack h t i q).getLsbD 63 = false := by
  rw [pack_getLsbD]
  rfl

/-! ### The operations on the block -/

namespace BlockInv

variable {msgMax : Nat} {b b' : Block}

/-- The reset values meet the invariant, under any parameters (R36). -/
theorem resetWith (P : Params) : BlockInv msgMax (Block.resetWith P) where
  tableWf := rfl
  msgWf := rfl
  counterBound _ := Nat.zero_le _
  countIsSum := tableTotal_nil.symm
  freshIsZero _ := ⟨rfl, rfl, fun _ => rfl⟩
  errBound := Nat.zero_le _
  idTopBit := by simp [Block.resetWith]

/-- At most 16384 times 256 identifiers are issued in a window (R34 (c)). -/
theorem wcount_le (h : BlockInv msgMax b) : b.wcount.toNat ≤ 4194304 :=
  h.countIsSum ▸ tableTotal_le h.counterBound

/-- A write that leaves the window keeps the invariant, if it writes a code that is produced and keeps
the message canonical. -/
theorem of_windowKept (h : BlockInv msgMax b) (hk : WindowKept b b') (herr : b'.err.toNat ≤ 7)
    (hmsg : Memory.wf msgMax b'.msg = true) : BlockInv msgMax b' where
  tableWf := hk.table ▸ h.tableWf
  msgWf := hmsg
  counterBound := hk.table ▸ h.counterBound
  countIsSum := by rw [hk.wcount, hk.table, h.countIsSum]
  freshIsZero := by
    rw [hk.tsValid, hk.tsBits, hk.wcount, hk.table]
    exact h.freshIsZero
  errBound := herr
  idTopBit := hk.idReg ▸ h.idTopBit

/-- A command's code keeps the invariant (R201). -/
theorem setErr (h : BlockInv msgMax b) (e : ErrCode) : BlockInv msgMax (setErr e b) :=
  h.of_windowKept (windowKept_setErr e b) (errBits_toNat_le e) h.msgWf

/-- A new window meets the invariant, whatever window it replaces (R152). -/
theorem startWindow (h : BlockInv msgMax b) (hid : b'.idReg = b.idReg) (hmsg : b'.msg = b.msg)
    (ts : TimeBits) : BlockInv msgMax (Machine.setErr .ok (startWindow ts b')) where
  tableWf := rfl
  msgWf := hmsg ▸ h.msgWf
  counterBound _ := Nat.zero_le _
  countIsSum := tableTotal_nil.symm
  freshIsZero := nofun
  errBound := Nat.zero_le _
  idTopBit := hid ▸ h.idTopBit

/-- An issue in an open window keeps the invariant: its slot and the window counter go up by one, and
neither wraps (R153). -/
theorem recordIssue (h : BlockInv msgMax b) (hv : b.tsValid = true) {slot : Slot}
    (hc : (tableGet b.table slot).toNat < 256) (P : Params) :
    BlockInv msgMax (recordIssue P slot (tableGet b.table slot) b) where
  tableWf := tableWf_set h.tableWf _ _
  msgWf := h.msgWf
  counterBound s := by
    rw [recordIssue_table, tableGet_tableSet]
    split
    · rw [counter_add_one_toNat hc]
      omega
    · exact h.counterBound s
  countIsSum := by
    have hle := h.wcount_le
    rw [recordIssue_table, tableTotal_count_up hc, ← h.countIsSum, recordIssue_wcount, BitVec.toNat_add]
    exact Nat.mod_eq_of_lt (by simp; omega)
  freshIsZero hfresh := absurd (hv.symm.trans hfresh) nofun
  errBound := h.errBound
  idTopBit := pack_topBit _ _ _ _

/-- A register write keeps the invariant of this hardware (R64). -/
theorem writeReg (h : BlockInv 256 b) (v : Word) (off : Offset) :
    BlockInv 256 (writeReg v b (regAt 256 off)) := by
  refine h.of_windowKept (windowKept_writeReg v b _) ?_ (memoryWf_writeReg h.msgWf v off)
  rw [writeReg_frame]
  exact h.errBound

end BlockInv

/-- Every command keeps the invariant (R34). -/
theorem CommandEffect.keeps_blockInv {msgMax : Nat} {i : Instr} {s t : State} (he : CommandEffect i s t)
    (h : BlockInv msgMax s.block) : BlockInv msgMax t.block := by
  rcases he.window_cases with hk | ⟨-, ts, b, hb, hid, hmsg⟩ | ⟨-, hv, slot, hc, hb⟩
  · obtain ⟨e, herr⟩ := he.err_eq
    obtain ⟨-, -, -, -, -, -, -, -, -, hmsg, -, -⟩ := he.frame
    exact h.of_windowKept hk (herr ▸ errBits_toNat_le e) (hmsg ▸ h.msgWf)
  · rw [hb]
    exact h.startWindow hid hmsg ts
  · rw [hb]
    exact (h.recordIssue hv hc _).setErr .ok

/-- Settles O46: each of the six things a step can do keeps the invariant. -/
theorem stepKeepsInvariant : Obligations.StepKeepsInvariant := by
  unfold Obligations.StepKeepsInvariant
  intro s t h hst
  rcases step_cases hst with ⟨-, rfl⟩ | ⟨a, rest, -, hact⟩
  · exact h
  · rcases hact with ⟨off, v, -, rfl⟩ | ⟨off, v, -, -, rfl⟩ | ⟨v, i, -, -, he⟩ | ⟨v, e, -, -, rfl⟩ |
      ⟨now, -, rfl⟩ | ⟨-, rfl⟩
    · exact h
    · exact BlockInv.writeReg h v off
    · exact he.keeps_blockInv h
    · exact BlockInv.setErr h .illegalCommand
    · exact h
    · exact .resetWith _

/-- Settles O47, from R34 (a) and (b). -/
theorem windowCountIsBounded : Obligations.WindowCountIsBounded := by
  unfold Obligations.WindowCountIsBounded
  exact fun s h => h.wcount_le

/-- Settles O5. -/
theorem resetStateHoldsResetValues : Obligations.ResetStateHoldsResetValues := by
  unfold Obligations.ResetStateHoldsResetValues HoldsResetValues
  exact ⟨rfl, rfl, rfl, fun _ => rfl, rfl, rfl, rfl, rfl, rfl, rfl, rfl, rfl, rfl, rfl, rfl, rfl, rfl,
    rfl, rfl, fun _ => rfl⟩

/-- Settles O45, from the reset values. -/
theorem invariantHoldsAtReset : Obligations.InvariantHoldsAtReset := by
  unfold Obligations.InvariantHoldsAtReset
  exact BlockInv.resetWith _

end Sys2Proof.Machine
end

section
/-! What each transaction of the host bus does (20_memory.md R60 to R72): the register at an offset, the
words a read answers, and where a write stores. -/

namespace Sys2Proof.Machine

/-! ### The register map (R62) -/

/-- Every register's offset is a multiple of 4 (R60). -/
theorem offsetOf_toNat_mod_four (r : Reg) : (offsetOf r).toNat % 4 = 0 := by
  cases r with
  | msgWord w => simp only [offsetOf, BitVec.toNat_ofNat]; omega
  | _ => rfl

/-- Every row of the map names its register's offset (R62, R96). -/
theorem offsetOf_of_mem_regMap : ∀ e ∈ regMap, (offsetOf e.2).toNat = e.1 := by decide

/-- The register at an offset that is not reserved stands at that offset alone (R62). -/
theorem offsetOf_regAt {off : Offset} (ha : off.toNat % 4 = 0) (hr : regAt 256 off ≠ .reserved) :
    offsetOf (regAt 256 off) = off := by
  apply BitVec.eq_of_toNat_eq
  simp only [regAt] at hr ⊢
  split
  · next r hf => exact offsetOf_of_mem_regMap (off.toNat, r) (mem_of_findReg hf)
  · next hf =>
    split
    · simp only [offsetOf, BitVec.toNat_ofNat]; omega
    · next hmsg => simp [hf, hmsg] at hr

/-- The message words of this hardware's map (R62). -/
theorem regAt_offsetOf_msgWord {w : Nat} (hw : w < 64) : regAt 256 (offsetOf (.msgWord w)) = .msgWord w :=
  regAt_offsetOf fun _ h => Reg.msgWord.inj h ▸ hw

/-! ### The words a read answers (R22, R63, R65) -/

/-- The low word as a number (R65). -/
theorem lowWord_eq (v : DWord) : lowWord v = BitVec.ofNat 32 v.toNat := by
  apply BitVec.eq_of_toNat_eq
  simp [lowWord]

/-- The high word as a number (R65). -/
theorem highWord_eq (v : DWord) : highWord v = BitVec.ofNat 32 (v.toNat / 2 ^ 32) := by
  apply BitVec.eq_of_toNat_eq
  simp [highWord, Nat.shiftRight_eq_div_pow]

/-- STATUS as a number: ERR, and TS_VALID in bit 4 (R22). -/
theorem statusWord_eq (b : Block) :
    statusWord b = BitVec.ofNat 32 (b.err.toNat + if b.tsValid then 16 else 0) := by
  have herr := b.err.isLt
  apply BitVec.eq_of_toNat_eq
  simp only [statusWord, BitVec.toNat_append, Nat.shiftLeft_eq, Nat.mul_comm _ (2 ^ 4)]
  rw [← Nat.two_pow_add_eq_or_of_lt herr]
  cases b.tsValid <;> simp <;> omega

/-- `MSG[w]` as a number: the four bytes of the word, the first the least significant (R63, R66). -/
theorem msgWordRead_eq (b : Block) (w : Nat) :
    msgWordRead b w = BitVec.ofNat 32 ((msgByte b (4 * w)).toNat + 2 ^ 8 * (msgByte b (4 * w + 1)).toNat +
      2 ^ 16 * (msgByte b (4 * w + 2)).toNat + 2 ^ 24 * (msgByte b (4 * w + 3)).toNat) := by
  rw [msgWordRead, ← wordOfLanes_toNat, BitVec.ofNat_toNat, BitVec.setWidth_eq]

/-! ### What a write stores (R62, R64) -/

/-- A write of a message word puts lane `j` in byte `4w+j` and leaves every other byte (R64). -/
theorem msgByte_msgWordWrite_lane (w : Nat) (v : Word) (b : Block) (a : Nat) :
    msgByte (msgWordWrite w v b) a = if a / 4 = w then byteLane v (a % 4) else msgByte b a := by
  rw [msgByte_msgWordWrite]
  by_cases hw : a / 4 = w
  · have ha : a = 4 * w + a % 4 := by omega
    have hlt : a % 4 < 4 := Nat.mod_lt _ (by decide)
    generalize a % 4 = j at ha hlt
    subst ha
    interval_cases j <;> simp [hw]
  · rw [if_neg hw, if_neg (by omega), if_neg (by omega), if_neg (by omega), if_neg (by omega)]

/-- Writing a word of a canonical message buffer twice writes it once (R72). -/
theorem msgWordWrite_idem {b : Block} {w : Nat} (h : Memory.wf 256 b.msg = true) (hw : 4 * w + 3 < 256)
    (v : Word) : msgWordWrite w v (msgWordWrite w v b) = msgWordWrite w v b := by
  have hone := memoryWf_msgWordWrite h hw v
  have hread (a : Nat) :
      msgByte (msgWordWrite w v (msgWordWrite w v b)) a = msgByte (msgWordWrite w v b) a := by
    simp only [msgByte_msgWordWrite_lane]
    split <;> rfl
  have hmsg : (msgWordWrite w v (msgWordWrite w v b)).msg = (msgWordWrite w v b).msg :=
    sparse_ext (memoryWf_msgWordWrite hone hw v) hone hread
  exact congrArg (fun m => { b with msg := m }) hmsg

/-- Every register write is idempotent (R72). -/
theorem writeReg_idem {b : Block} (h : Memory.wf 256 b.msg = true) (v : Word) (off : Offset) :
    writeReg v (writeReg v b (regAt 256 off)) (regAt 256 off) = writeReg v b (regAt 256 off) := by
  cases hr : regAt 256 off with
  | msgWord w => exact msgWordWrite_idem h (lt_of_regAt_msgWord hr) v
  | _ => rfl

/-- A write to a read-only register or a reserved offset stores nothing (R64). -/
theorem writeReg_of_not_writable {off : Offset} (ha : off.toNat % 4 = 0)
    (h : (0x004 ≤ off.toNat ∧ off.toNat ≤ 0x01C) ∨ (0x044 ≤ off.toNat ∧ off.toNat ≤ 0x0FC) ∨
      0x200 ≤ off.toNat) (v : Word) (b : Block) :
    writeReg v b (regAt 256 off) = b := by
  have hoff := offsetOf_regAt ha
  cases hr : regAt 256 off with
  | cmd | status | idLo | idHi | tsBits | wcountLo | wcountHi | reserved => rfl
  | msgWord w =>
    have hw := lt_of_regAt_msgWord hr
    rw [hr] at hoff
    rw [← hoff nofun, offsetOf, BitVec.toNat_ofNat] at h
    omega
  | _ =>
    rw [hr] at hoff
    rw [← hoff nofun] at h
    exact absurd h (by decide)

/-! ### One step of the bus -/

section Transactions

variable {s : State} {off : Offset} {v : Word} {rest : List HostAction}

/-- A write to CMD runs the word it writes (R64, R95). -/
theorem step_write_cmd (hp : s.pending = .write 0x000 v :: rest) :
    step s = command exec v { s with pending := rest } := by
  rw [step_of_pending_cons hp]
  rfl

/-- A write to any other aligned offset stores in the register there (R64). -/
theorem step_write (hp : s.pending = .write off v :: rest) (ha : off.toNat % 4 = 0) (h0 : off ≠ 0) :
    step s = .next { s with pending := rest, block := writeReg v s.block (regAt 256 off) } := by
  have ha' : Offset.aligned off = true := by simpa [Offset.aligned] using ha
  have hc : regAt 256 off ≠ .cmd := fun h => h0 (regAt_eq_cmd.mp h)
  simp [step_of_pending_cons hp, transact, ha', busWrite, hc]

/-- A step that runs a word that decodes is that command (R95). -/
theorem step_write_cmd_of_decode {i : Instr} (hp : s.pending = .write 0x000 v :: rest)
    (hd : decode v = .ok i) : step s = exec i { s with pending := rest } := by
  rw [step_write_cmd hp, command, hd]

end Transactions

/-- Settles O4. -/
theorem stepRunsDecodedCommand : Obligations.StepRunsDecodedCommand := by
  unfold Obligations.StepRunsDecodedCommand
  exact fun s rest v i hp hd _ => step_write_cmd_of_decode hp hd

/-- Settles O11: the bus looks at the offset before anything else. -/
theorem unalignedAccessIsRefused : Obligations.UnalignedAccessIsRefused := by
  unfold Obligations.UnalignedAccessIsRefused
  intro s rest off ha
  have ha' : Offset.aligned off = false := by simpa [Offset.aligned] using ha
  refine ⟨fun hp => ?_, fun v hp => ?_⟩
  · simp [step_of_pending_cons hp, transact, ha']
  · simp [step_of_pending_cons hp, transact, ha']

/-- Settles O9: the register at each offset, and the number it holds. -/
theorem busReadReturnsRegister : Obligations.BusReadReturnsRegister := by
  unfold Obligations.BusReadReturnsRegister
  intro s rest reads
  have hreads {off : Offset} {v : Word} (ha : off.toNat % 4 = 0)
      (hv : readReg s.block (regAt 256 off) = .ok v) : reads off v :=
    (step_read_eq_next rfl).mpr ⟨ha, v, hv, rfl⟩
  refine ⟨hreads rfl rfl, fun herr => hreads rfl ?_, hreads rfl ?_, hreads rfl ?_, hreads rfl ?_,
    hreads rfl ?_, hreads rfl ?_, hreads rfl rfl, hreads rfl rfl, hreads rfl rfl, hreads rfl rfl,
    hreads rfl rfl, hreads rfl rfl, hreads rfl rfl, hreads rfl rfl, hreads rfl rfl, fun w hw => ?_,
    fun off ha hoff => hreads ha ?_⟩
  · rw [← statusWord_eq]
    exact if_neg (by omega)
  · rw [← lowWord_eq]; rfl
  · rw [← highWord_eq]; rfl
  · rw [BitVec.ofNat_toNat]; rfl
  · rw [← lowWord_eq]; rfl
  · rw [← highWord_eq]; rfl
  · rw [← msgWordRead_eq]
    exact hreads (offsetOf_toNat_mod_four (.msgWord w)) (congrArg (readReg s.block) (regAt_offsetOf_msgWord hw))
  · have hres : off.toNat = 0x01C ∨ (0x044 ≤ off.toNat ∧ off.toNat ≤ 0x0FF) ∨ 0x200 ≤ off.toNat :=
      hoff.imp (congrArg BitVec.toNat) (by omega)
    rw [regAt_reserved hres]; rfl

/-- Settles O10: a CMD write is a command, and every other write stores in the register at its offset. -/
theorem busWriteStoresOrCommands : Obligations.BusWriteStoresOrCommands := by
  unfold Obligations.BusWriteStoresOrCommands
  intro s rest v leaves
  have hstores {off : Offset} {r : Reg} (ha : off.toNat % 4 = 0) (hr : regAt 256 off = r)
      (h0 : off ≠ 0) : leaves off (writeReg v s.block r) := by
    subst hr
    exact step_write rfl ha h0
  refine ⟨fun i hd => step_write_cmd_of_decode rfl hd, fun e hd => ?_, fun off ha hoff => ?_,
    hstores rfl rfl (by decide), hstores rfl rfl (by decide), hstores rfl rfl (by decide),
    hstores rfl rfl (by decide), hstores rfl rfl (by decide), hstores rfl rfl (by decide),
    hstores rfl rfl (by decide), hstores rfl rfl (by decide), hstores rfl rfl (by decide),
    fun w hw => ⟨msgWordWrite w v s.block, ?_, rfl, msgByte_msgWordWrite_lane w v s.block⟩⟩
  · exact (step_write_cmd rfl).trans (by rw [command, hd]; rfl)
  · have h0 : off ≠ 0 := by rintro rfl; revert hoff; decide
    have := hstores ha rfl h0
    rwa [writeReg_of_not_writable ha hoff] at this
  · have hr := regAt_offsetOf_msgWord hw
    have h0 : offsetOf (.msgWord w) ≠ 0 := fun h => nomatch hr.symm.trans (regAt_eq_cmd.mpr h)
    exact hstores (offsetOf_toNat_mod_four (.msgWord w)) hr h0

/-- Settles O12: both writes store the same word in the same register. -/
theorem registerWritesAreIdempotent : Obligations.RegisterWritesAreIdempotent := by
  unfold Obligations.RegisterWritesAreIdempotent
  intro s rest off v hinv ha h0
  exact ⟨_, _, step_write rfl ha h0, step_write rfl ha h0, writeReg_idem hinv.msgWf v off, rfl⟩

/-- Settles O13: of the six things a step can do, the four that are left. -/
theorem onlyCmdWritesHaveSideEffects : Obligations.OnlyCmdWritesHaveSideEffects := by
  unfold Obligations.OnlyCmdWritesHaveSideEffects
  intro s t a rest hp hst hreset hcmd
  rcases step_cases hst with ⟨hnil, -⟩ | ⟨a', rest', hp', hact⟩
  · simp [hp] at hnil
  · obtain ⟨rfl, rfl⟩ := List.cons.inj (hp'.symm.trans hp)
    rcases hact with ⟨off, v, rfl, rfl⟩ | ⟨off, v, rfl, -, rfl⟩ | ⟨v, i, ha, -, -⟩ | ⟨v, e, ha, -, -⟩ |
      ⟨now, rfl, rfl⟩ | ⟨ha, -⟩
    · exact ⟨rfl, fun _ => rfl, rfl⟩
    · exact ⟨writeReg_frame v s.block _, fun h => absurd rfl (h off v), rfl⟩
    · exact absurd ha (hcmd v)
    · exact absurd ha (hcmd v)
    · exact ⟨rfl, fun _ => rfl, rfl⟩
    · exact absurd ha hreset

end Sys2Proof.Machine
end

section
/-! What the pseudo-instructions of the host assembly move (30_encoding.md R97): the key and the epoch that
CUSTOM reads, the two words of a 64-bit register, and the message that NEXT_ID_WITH_HASH hashes. -/

namespace Sys2Proof.Machine

/-- Every register's offset is one the port can express (R60, R96). -/
theorem aligned_offsetOf (r : Reg) : Offset.aligned (offsetOf r) = true := by
  simp [Offset.aligned, offsetOf_toNat_mod_four]

/-- A program without lines leaves the state. -/
@[simp] theorem runProgram_nil (s : State) : runProgram [] s = some s := rfl

/-- An `rd` line answers its register's value and goes on (R63, R96). -/
theorem runProgram_rd {r : Reg} {v : Word} (s : State) (rest : List HostAction)
    (hr : regAt 256 (offsetOf r) = r) (hv : readReg s.block r = .ok v) :
    runProgram (rd r :: rest) s = runProgram rest { s with responses := v :: s.responses } := by
  simp [runProgram, rd, transact, aligned_offsetOf, busRead, hr, hv]

/-! ### The operands of CUSTOM -/

/-- `ldkey` writes the four words of the key (R97). -/
theorem runProgram_asmLdkey (k : Key) (s : State) :
    runProgram (asmLdkey k) s = some { s with block := { s.block with
      argKey0 := wordOfLanes k[0] k[1] k[2] k[3], argKey1 := wordOfLanes k[4] k[5] k[6] k[7],
      argKey2 := wordOfLanes k[8] k[9] k[10] k[11], argKey3 := wordOfLanes k[12] k[13] k[14] k[15] } } := by
  simp [asmLdkey, runProgram_wr, regAt_offsetOf, aligned_offsetOf, writeReg]

/-- `ld64 ARG_EPOCH` writes the two words of the epoch (R97). -/
theorem runProgram_asmLd64Epoch (v : DWord) (s : State) :
    runProgram (asmLd64Epoch v) s = some { s with block := { s.block with
      argEpochLo := lowWord v, argEpochHi := highWord v } } := by
  simp [asmLd64Epoch, runProgram_wr, regAt_offsetOf, aligned_offsetOf, writeReg]

/-- The key registers that hold the words of a key hold that key (R67). -/
theorem keyOperand_of_words {b : Block} {k : Key} (h0 : b.argKey0 = wordOfLanes k[0] k[1] k[2] k[3])
    (h1 : b.argKey1 = wordOfLanes k[4] k[5] k[6] k[7])
    (h2 : b.argKey2 = wordOfLanes k[8] k[9] k[10] k[11])
    (h3 : b.argKey3 = wordOfLanes k[12] k[13] k[14] k[15]) : keyOperand b = k := by
  simp only [keyOperand, h0, h1, h2, h3, byteLane_wordOfLanes]
  ext i hi
  interval_cases i <;> rfl

/-- Settles O14: the lines of each pseudo-instruction one after another. -/
theorem registerPseudosMoveOperands : Obligations.RegisterPseudosMoveOperands := by
  unfold Obligations.RegisterPseudosMoveOperands
  intro s k v
  refine ⟨⟨_, runProgram_asmLdkey k s, keyOperand_of_words rfl rfl rfl rfl, rfl⟩,
    ⟨_, runProgram_asmLd64Epoch v s, highWord_append_lowWord v, rfl⟩,
    ⟨lowWord s.block.idReg, highWord s.block.idReg, ?_, highWord_append_lowWord _⟩,
    ⟨lowWord s.block.wcount, highWord s.block.wcount, ?_, highWord_append_lowWord _⟩⟩
  · simp [asmRd64Id, runProgram_rd, regAt_offsetOf, readReg]
  · simp [asmRd64Wcount, runProgram_rd, regAt_offsetOf, readReg]

/-! ### The message -/

/-- The lanes of the words of `ldmsg` are the bytes of the message, 0 past its end (R66, R97). -/
theorem byteLane_asmMsgWord (bs : List Byte) (a : Nat) :
    byteLane (asmMsgWord bs (a / 4)) (a % 4) = bs.getD a 0 := by
  obtain ⟨h0, h1, h2, h3⟩ := byteLane_wordOfLanes (bs.getD (4 * (a / 4)) 0) (bs.getD (4 * (a / 4) + 1) 0)
    (bs.getD (4 * (a / 4) + 2) 0) (bs.getD (4 * (a / 4) + 3) 0)
  have ha := Nat.div_add_mod a 4
  have hlt : a % 4 < 4 := Nat.mod_lt _ (by decide)
  generalize a / 4 = w, a % 4 = j at *
  subst ha
  interval_cases j <;> assumption

/-- The message words of `ldmsg` load the first bytes of the message and touch nothing else (R66). -/
theorem runProgram_msgWords (s : State) (bs : List Byte) {n : Nat} (hn : n ≤ 64) :
    ∃ t, runProgram ((List.range n).map fun w => wr (.msgWord w) (asmMsgWord bs w)) s = some t ∧
      (∀ a, msgByte t.block a = if a < 4 * n then bs.getD a 0 else msgByte s.block a) ∧
      t = { s with block := { s.block with msg := t.block.msg } } := by
  induction n with
  | zero => exact ⟨s, rfl, fun a => by simp, rfl⟩
  | succ n ih =>
    obtain ⟨t, hrun, hmsg, hframe⟩ := ih (by omega)
    refine ⟨{ t with block := msgWordWrite n (asmMsgWord bs n) t.block }, ?_, fun a => ?_, ?_⟩
    · rw [List.range_succ, List.map_append, runProgram_append, hrun]
      exact runProgram_wr _ t [] (regAt_offsetOf_msgWord (by omega)) (aligned_offsetOf _) nofun
    · rw [msgByte_msgWordWrite_lane, hmsg]
      by_cases ha : a / 4 = n
      · rw [if_pos ha, if_pos (by omega), ← ha, byteLane_asmMsgWord]
      · rw [if_neg ha]
        exact if_congr (by omega) rfl rfl
    · rw [hframe]
      rfl

/-- The message operand reads back the first MSG_LEN bytes of the buffer (R122). -/
theorem messageOperand_eq {b : Block} {bs : List Byte} (hlen : b.msgLen.toNat = bs.length)
    (h : ∀ a < bs.length, msgByte b a = bs.getD a 0) : messageOperand b = bs := by
  apply List.ext_getElem
  · simp [messageOperand, hlen]
  · intro a _ ha
    simp [messageOperand, h a ha, ha]

/-- Settles O15: the words load the bytes, and MSG_LEN says how many. -/
theorem ldmsgLoadsMessage : Obligations.LdmsgLoadsMessage := by
  unfold Obligations.LdmsgLoadsMessage
  intro s bs hbs
  obtain ⟨t, hrun, hmsg, hframe⟩ :=
    runProgram_msgWords s bs (n := (bs.length + 3) / 4) (by omega)
  have hlen : (BitVec.ofNat 32 bs.length).toNat = bs.length := by
    rw [BitVec.toNat_ofNat]
    omega
  refine ⟨{ t with block := { t.block with msgLen := BitVec.ofNat 32 bs.length } }, ?_, ?_, hlen, ?_, ?_⟩
  · rw [asmLdmsg, runProgram_append, hrun]
    exact runProgram_wr (r := .msgLen) _ t [] rfl rfl nofun
  · exact messageOperand_eq hlen fun a ha => (hmsg a).trans (if_pos (by omega))
  · exact fun a ha => (hmsg a).trans (if_neg (by omega))
  · rw [hframe]

end Sys2Proof.Machine
end

section
/-! Command words (30_encoding.md R90 to R95): the six that are the encoding of a command, and the rest,
which are illegal; and what a time line leaves (R96). -/

namespace Sys2Proof.Machine

/-! ### The opcode map (R92, R93) -/

/-- Every command's word decodes to it (R92). -/
@[simp] theorem decode_encode (i : Instr) : decode (encode i) = .ok i := by
  cases i <;> rfl

/-- The words that decode to a command are its encoding alone (R92, R95). -/
theorem decode_eq_ok_iff {v : Word} {i : Instr} : decode v = .ok i ↔ v = encode i :=
  ⟨eq_encode_of_decode, fun h => h ▸ decode_encode i⟩

/-- The command words are numbered 1 to 6 (R92). -/
theorem exists_eq_encode_iff {v : Word} : (∃ i, v = encode i) ↔ 1 ≤ v.toNat ∧ v.toNat ≤ 6 := by
  constructor
  · rintro ⟨i, rfl⟩
    cases i <;> decide
  · rintro ⟨h1, h6⟩
    interval_cases hv : v.toNat
    exacts [⟨.new, BitVec.eq_of_toNat_eq hv⟩, ⟨.custom, BitVec.eq_of_toNat_eq hv⟩,
      ⟨.setInstanceId, BitVec.eq_of_toNat_eq hv⟩, ⟨.updateTime, BitVec.eq_of_toNat_eq hv⟩,
      ⟨.nextId, BitVec.eq_of_toNat_eq hv⟩, ⟨.nextIdWithHash, BitVec.eq_of_toNat_eq hv⟩]

/-- The decoder refuses a word exactly if it decodes it to no command (R95). -/
theorem exists_decode_error_iff {v : Word} : (∃ e, decode v = .error e) ↔ ¬ ∃ i, decode v = .ok i := by
  cases decode v <;> simp

/-- The illegal words by number: RSVD is not 0, or OPC is 0 or at least 7 (R93). -/
theorem illegal_iff {v : Word} :
    (∃ e, decode v = .error e) ↔ v.toNat / 16 ≠ 0 ∨ v.toNat % 16 = 0 ∨ 7 ≤ v.toNat % 16 := by
  simp only [exists_decode_error_iff, decode_eq_ok_iff, exists_eq_encode_iff]
  omega

/-! ### Steps that run no command -/

section Steps

variable {s : State} {rest : List HostAction}

/-- A write of an illegal word to CMD sets ERR and nothing else (R93, R166). -/
theorem step_write_cmd_of_decode_error {v : Word} {e : DecodeError}
    (hp : s.pending = .write 0x000 v :: rest) (hd : decode v = .error e) :
    step s = .next { s with pending := rest, block := setErr .illegalCommand s.block } := by
  rw [step_write_cmd hp, command, hd]
  rfl

/-- A time line sets the value the time port shows and nothing else (R96). -/
theorem step_time {now : DWord} (hp : s.pending = .time now :: rest) :
    step s = .next { s with pending := rest, nextTime := some now } :=
  step_of_pending_cons hp

end Steps

/-! ### The obligations -/

/-- Settles O1: `decode` and `encode` are inverse to each other, and the rows' words are the encoder's. -/
theorem decodeEncodeAgree : Obligations.DecodeEncodeAgree := by
  unfold Obligations.DecodeEncodeAgree
  exact ⟨⟨rfl, rfl, rfl, rfl, rfl, rfl⟩, fun _ _ _ => decode_eq_ok_iff⟩

/-- Settles O2: a word that is none of the six numbers runs ILLEGAL. -/
theorem illegalWordSetsErrOnly : Obligations.IllegalWordSetsErrOnly := by
  unfold Obligations.IllegalWordSetsErrOnly
  refine fun v => ⟨illegal_iff, fun hv s rest hp => ?_⟩
  obtain ⟨e, hd⟩ := illegal_iff.mpr hv
  exact step_write_cmd_of_decode_error hp hd

/-- Settles O3: the legal words are encodings, and each illegal one is a fixed word. -/
theorem sampleWordsDecode : Obligations.SampleWordsDecode := by
  unfold Obligations.SampleWordsDecode
  exact ⟨decode_encode .new, decode_encode .updateTime, decode_encode .nextIdWithHash, rfl, rfl⟩

/-- Settles O42: the time line's value stands on the port after the step, and without one the port shows
the free value. -/
theorem timeLineGivesNextSample : Obligations.TimeLineGivesNextSample := by
  unfold Obligations.TimeLineGivesNextSample
  exact fun s now rest => ⟨fun hp => ⟨_, step_time hp, timeSample_some rfl, rfl⟩, timeSample_none⟩

end Sys2Proof.Machine
end

section
/-! The packed identifier (40_bit_packer.md R110 to R113): its value as a number, its fields, and when two
packed identifiers are equal. -/

namespace Sys2Proof.Machine

/-! ### The value (R110) -/

/-- A field of `w` bits shifted into place below bit 64 loses none of its bits. -/
theorem toNat_setWidth_shiftLeft {v w n : Nat} (x : BitVec v) (hn : w + n ≤ 64) :
    ((x.setWidth w).setWidth 64 <<< n).toNat = (x.toNat % 2 ^ w) <<< n := by
  have hx : x.toNat % 2 ^ w < 2 ^ w := Nat.mod_lt _ (Nat.two_pow_pos w)
  have hw : x.toNat % 2 ^ w < 2 ^ 64 := hx.trans_le (Nat.pow_le_pow_right two_pos (by omega))
  have hs : (x.toNat % 2 ^ w) <<< n < 2 ^ 64 := calc
    (x.toNat % 2 ^ w) <<< n = (x.toNat % 2 ^ w) * 2 ^ n := Nat.shiftLeft_eq _ _
    _ < 2 ^ w * 2 ^ n := Nat.mul_lt_mul_of_pos_right hx (Nat.two_pow_pos n)
    _ = 2 ^ (w + n) := (pow_add 2 w n).symm
    _ ≤ 2 ^ 64 := Nat.pow_le_pow_right two_pos hn
  rw [BitVec.toNat_shiftLeft, BitVec.toNat_setWidth, BitVec.toNat_setWidth, Nat.mod_eq_of_lt hw,
    Nat.mod_eq_of_lt hs]

section Packer

variable (h : BitVec 16) (t : BitVec 32) (i : BitVec 16) (q : BitVec 8)

/-- R110 on natural numbers. -/
theorem pack_toNat : (pack h t i q).toNat =
    ((h.toNat % 2 ^ 14) <<< 49) ||| ((t.toNat % 2 ^ 31) <<< 18) ||| ((i.toNat % 2 ^ 10) <<< 8) ||| q.toNat := by
  rw [pack, BitVec.toNat_or, BitVec.toNat_or, BitVec.toNat_or,
    toNat_setWidth_shiftLeft h (by decide), toNat_setWidth_shiftLeft t (by decide),
    toNat_setWidth_shiftLeft i (by decide), BitVec.toNat_setWidth_of_le (by decide)]

/-! ### The fields (R113) -/

@[simp] theorem idHash_pack : idHash (pack h t i q) = h.setWidth 14 := by
  ext j hj
  rw [idHash, BitVec.getElem_extractLsb', pack_getLsbD, if_neg (by omega), if_neg (by omega), if_neg (by omega), if_pos (by omega)]
  simp
@[simp] theorem idTimestamp_pack : idTimestamp (pack h t i q) = t.setWidth 31 := by
  ext j hj
  rw [idTimestamp, BitVec.getElem_extractLsb', pack_getLsbD, if_neg (by omega), if_neg (by omega), if_pos (by omega)]
  simp
@[simp] theorem idInstance_pack : idInstance (pack h t i q) = i.setWidth 10 := by
  ext j hj
  rw [idInstance, BitVec.getElem_extractLsb', pack_getLsbD, if_neg (by omega), if_pos (by omega)]
  simp
@[simp] theorem idSequence_pack : idSequence (pack h t i q) = q := by
  ext j hj
  simp [idSequence, pack_getLsbD, hj]

end Packer

/-! ### Equal packed values (R111, R113) -/

section Equal

variable {h h' : BitVec 16} {t t' : BitVec 32} {i i' : BitVec 16} {q q' : BitVec 8}

/-- Two packed values are equal exactly if the truncated operands are: the operands' low bits are all that
a packed value holds, and it holds each of them. -/
theorem pack_eq_pack_iff : pack h t i q = pack h' t' i' q' ↔
    h.setWidth 14 = h'.setWidth 14 ∧ t.setWidth 31 = t'.setWidth 31 ∧ i.setWidth 10 = i'.setWidth 10 ∧ q = q' := by
  constructor
  · intro he
    exact ⟨by simpa using congrArg idHash he, by simpa using congrArg idTimestamp he,
      by simpa using congrArg idInstance he, by simpa using congrArg idSequence he⟩
  · rintro ⟨hh, ht, hi, rfl⟩
    rw [pack, pack, hh, ht, hi]

/-- Truncation keeps a number in range. -/
theorem toNat_setWidth_of_lt {v w : Nat} {x : BitVec v} (hx : x.toNat < 2 ^ w) :
    (x.setWidth w).toNat = x.toNat := by
  rw [BitVec.toNat_setWidth, Nat.mod_eq_of_lt hx]

/-- Truncation is injective on the numbers in range. -/
theorem eq_of_setWidth_eq_of_lt {v w : Nat} {x y : BitVec v} (hx : x.toNat < 2 ^ w) (hy : y.toNat < 2 ^ w)
    (he : x.setWidth w = y.setWidth w) : x = y :=
  BitVec.eq_of_toNat_eq <| by rw [← toNat_setWidth_of_lt hx, he, toNat_setWidth_of_lt hy]

/-- Masking with ones in its low `w` bits does not change what truncation to `w` bits keeps. -/
theorem setWidth_and_mask {v w : Nat} (x : BitVec v) {m : BitVec v} (hm : m.setWidth w = BitVec.allOnes w) :
    (x &&& m).setWidth w = x.setWidth w := by
  rw [BitVec.setWidth_and, hm, BitVec.and_allOnes]

end Equal

/-! ### The obligations -/

/-- Settles O16: the value is computed operand by operand, and the fields are those unpacking reads. -/
theorem packPlacesFields : Obligations.PackPlacesFields := by
  unfold Obligations.PackPlacesFields
  exact fun h t i q => ⟨pack_toNat h t i q, idHash_pack h t i q, idTimestamp_pack h t i q,
    idInstance_pack h t i q, idSequence_pack h t i q, pack_topBit h t i q⟩

/-- Settles O17: a packed value holds the truncated operands, and truncation keeps operands in range. -/
theorem unpackInvertsPack : Obligations.UnpackInvertsPack := by
  unfold Obligations.UnpackInvertsPack
  intro h h' t t' i i' q q'
  constructor
  · exact pack_eq_pack_iff.mpr ⟨(setWidth_and_mask h (by decide)).symm, (setWidth_and_mask t (by decide)).symm,
      (setWidth_and_mask i (by decide)).symm, rfl⟩
  · intro hh ht hi
    rw [idHash_pack, idTimestamp_pack, idInstance_pack, idSequence_pack]
    refine ⟨toNat_setWidth_of_lt hh, toNat_setWidth_of_lt ht, toNat_setWidth_of_lt hi, rfl, ?_⟩
    intro hh' ht' hi' he
    obtain ⟨eh, et, ei, es⟩ := pack_eq_pack_iff.mp he
    exact ⟨eq_of_setWidth_eq_of_lt hh hh' eh, eq_of_setWidth_eq_of_lt ht ht' et,
      eq_of_setWidth_eq_of_lt hi hi' ei, es⟩

end Sys2Proof.Machine
end

section
/-! The check of the parameters (42_permutation.md R134, 00_scope.md R7): what a table that passes is, and
what an instantiation accepts. -/

namespace Sys2Proof

/-- Passing the check of a table is being a rearrangement of the indices (R130, R134). -/
theorem isBijection_iff_perm {n : Nat} {T : List Nat} : isBijection n T = true ↔ T.Perm (List.range n) := by
  simp only [isBijection, Bool.and_eq_true, beq_iff_eq, List.all_eq_true, decide_eq_true_eq]
  constructor
  · rintro ⟨⟨hlen, hlt⟩, hnodup⟩
    have hsub : T ⊆ List.range n := fun x hx => List.mem_range.mpr (hlt x hx)
    exact (List.subperm_of_subset hnodup hsub).perm_of_length_le (by simp [hlen])
  · intro hp
    exact ⟨⟨by simpa using hp.length_eq, fun x hx => List.mem_range.mp (hp.mem_iff.mp hx)⟩,
      hp.nodup_iff.mpr List.nodup_range⟩

/-- The check passes exactly if none of its four conditions is violated (R7, R134). -/
theorem Params.error?_eq_none_iff {P : Params} : P.error? = none ↔
    isBijection 31 P.perm31 = true ∧ isBijection 8 P.perm8 = true ∧ P.probeLimit ≠ 0 ∧
      ¬ (P.msgMax % 4 ≠ 0 ∨ P.msgMax < 4 ∨ 3840 < P.msgMax) := by
  unfold Params.error?
  split_ifs with h31 h8 hprobe hmsg <;> simp [*]

/-- Instantiation refuses exactly what the check refuses, and changes nothing in what it accepts (R134). -/
theorem Params.exists_instantiate_eq_ok_iff {P : Params} :
    (∃ Q, P.instantiate = .ok Q ∧ Q.toParams = P) ↔ P.error? = none := by
  constructor
  · rintro ⟨Q, -, rfl⟩
    exact Q.checked
  · intro h
    refine ⟨⟨P, h⟩, ?_, rfl⟩
    unfold Params.instantiate
    split
    next => rfl
    next e he => cases h.symm.trans he

/-- Settles O22: the check's four conditions, the two on tables read as rearrangements of the indices. -/
theorem instantiationChecksParameters : Obligations.InstantiationChecksParameters := by
  unfold Obligations.InstantiationChecksParameters
  intro P
  rw [Params.exists_instantiate_eq_ok_iff, Params.error?_eq_none_iff, isBijection_iff_perm, isBijection_iff_perm]
  have hrange : (P.probeLimit ≠ 0 ∧ ¬ (P.msgMax % 4 ≠ 0 ∨ P.msgMax < 4 ∨ 3840 < P.msgMax)) ↔
      1 ≤ P.probeLimit ∧ 4 ∣ P.msgMax ∧ 4 ≤ P.msgMax ∧ P.msgMax ≤ 3840 := by omega
  rw [hrange]

end Sys2Proof
end

section
/-! The permutation engines (42_permutation.md R131 to R136) bit by bit, and the refresh that compares
permuted buckets (44_engine_commands.md R163). -/

namespace Sys2Proof.Machine

/-! ### The bits of a permuted value (R131) -/

section Bits

variable {n : Nat} (v : BitVec n) {T : List Nat}

/-- The sum over a table puts its first entry's bit below the rest (R131). -/
theorem permuteSum_cons (t : Nat) (rest : List Nat) :
    permuteSum v (t :: rest) = Nat.bit (v.getLsbD t) (permuteSum v rest) := by
  rw [Nat.bit_val, Nat.add_comm]
  rfl

theorem testBit_permuteSum {i : Nat} (hi : i < T.length) : (permuteSum v T).testBit i = v.getLsbD T[i] := by
  induction T generalizing i with
  | nil => cases hi
  | cons t rest ih =>
    rw [permuteSum_cons]
    cases i with
    | zero => exact Nat.testBit_bit_zero _ _
    | succ i => rw [Nat.testBit_bit_succ, ih (Nat.lt_of_succ_lt_succ hi)]; rfl

/-- Output bit `i` is input bit `T[i]` (R131). -/
theorem permute_getLsbD (hT : T.length = n) {i : Nat} (hi : i < T.length) :
    (permute v T).getLsbD i = v.getLsbD T[i] := by
  rw [permute, BitVec.getLsbD_ofNat, testBit_permuteSum v hi, decide_eq_true (hT ▸ hi), Bool.true_and]

/-- The output's bits in order are the input's bits in the table's order (R131). -/
theorem map_getLsbD_permute (hT : T.length = n) :
    (List.range n).map (permute v T).getLsbD = T.map v.getLsbD := by
  refine List.ext_getElem (by simp [hT]) fun i _ hi => ?_
  rw [List.length_map] at hi
  simpa using permute_getLsbD v hT hi

/-! ### Tables written most-significant-first (R131) -/

@[simp] theorem length_tableFromMsbFirst (T : List Nat) : (tableFromMsbFirst T).length = T.length := by
  simp [tableFromMsbFirst]

/-- The converted table reads the given one from its end, each entry counted from the top (R131). -/
theorem getElem_tableFromMsbFirst {i : Nat} (hi : i < (tableFromMsbFirst T).length) :
    (tableFromMsbFirst T)[i] = T.length - 1 - T[T.length - 1 - i]'(by rw [length_tableFromMsbFirst] at hi; omega) := by
  simp [tableFromMsbFirst]

/-- Permuting by the converted table acts on the positions counted from the top as the given table
says (R131). -/
theorem permute_tableFromMsbFirst_getMsbD (hT : T.length = n) (hlt : ∀ x ∈ T, x < n) {i : Nat}
    (hi : i < T.length) : (permute v (tableFromMsbFirst T)).getMsbD i = v.getMsbD T[i] := by
  subst hT
  have hx : T[i] < T.length := hlt _ (List.getElem_mem hi)
  have hj : T.length - 1 - i < (tableFromMsbFirst T).length := by rw [length_tableFromMsbFirst]; omega
  have hi' : T.length - 1 - (T.length - 1 - i) = i := by omega
  rw [BitVec.getMsbD_eq_getLsbD, BitVec.getMsbD_eq_getLsbD,
    permute_getLsbD v (length_tableFromMsbFirst T) hj, getElem_tableFromMsbFirst]
  simp [hi, hx, hi']

end Bits

/-! ### Bijective tables (R131, R134) -/

section Bijective

variable {n : Nat} {T : List Nat} (hT : isBijection n T = true)
include hT

theorem length_of_isBijection : T.length = n := by
  simpa using (isBijection_iff_perm.mp hT).length_eq

/-- All ones stay all ones: every entry names a bit of the value. -/
theorem permute_allOnes : permute (BitVec.allOnes n) T = BitVec.allOnes n := by
  have hlen := length_of_isBijection hT
  refine BitVec.eq_of_getLsbD_eq fun i hi => ?_
  have hlt : T[i] < n := List.mem_range.mp ((isBijection_iff_perm.mp hT).mem_iff.mp (List.getElem_mem _))
  rw [permute_getLsbD _ hlen (hlen.symm ▸ hi), BitVec.getLsbD_allOnes, BitVec.getLsbD_allOnes,
    decide_eq_true hlt, decide_eq_true hi]

/-- The number of ones is that of the input's bits in the table's order, which does not matter. -/
theorem countP_permute (v : BitVec n) :
    (List.range n).countP (permute v T).getLsbD = (List.range n).countP v.getLsbD := calc
  _ = ((List.range n).map (permute v T).getLsbD).countP id := (List.countP_map ..).symm
  _ = (T.map v.getLsbD).countP id := by rw [map_getLsbD_permute v (length_of_isBijection hT)]
  _ = T.countP v.getLsbD := List.countP_map ..
  _ = _ := (isBijection_iff_perm.mp hT).countP_eq _

/-- Every input bit reaches the output, so equal outputs come from equal inputs (R134). -/
theorem permute_inj {a b : BitVec n} : permute a T = permute b T ↔ a = b := by
  refine ⟨fun he => BitVec.eq_of_getLsbD_eq fun t ht => ?_, fun he => he ▸ rfl⟩
  have hlen := length_of_isBijection hT
  have hbits : T.map a.getLsbD = T.map b.getLsbD := by
    rw [← map_getLsbD_permute a hlen, ← map_getLsbD_permute b hlen, he]
  exact List.map_inj_left.mp hbits t ((isBijection_iff_perm.mp hT).mem_iff.mpr (List.mem_range.mpr ht))

end Bijective

theorem permute_zero {n : Nat} {T : List Nat} (hT : T.length = n) : permute (0 : BitVec n) T = 0 := by
  refine BitVec.eq_of_getLsbD_eq fun i hi => ?_
  rw [permute_getLsbD _ hT (hT.symm ▸ hi)]
  simp

/-- `P31` of this hardware is injective (R136). -/
theorem p31_params_inj {a b : BitVec 31} : p31 Config.params a = p31 Config.params b ↔ a = b :=
  permute_inj (Config.isBijection_tableOf Config.perm31Map)

/-- `P8` of this hardware is injective (R134). -/
theorem p8_params_inj {a b : BitVec 8} : p8 Config.params a = p8 Config.params b ↔ a = b :=
  permute_inj (Config.isBijection_tableOf Config.perm8Map)

/-! ### A refresh at an accepted time (R163) -/

section Refresh

variable {s : State} {q : BitVec 31}

/-- A refresh accepted in bucket `q` starts a window unless one with the bits of `q` is running (R163). -/
theorem exec_updateTime_of_quantize (hq : quantize s.block.cfgEpoch (timeSample s) = .ok q) :
    exec .updateTime s = .next (commit (afterSample s) (.ok
      (if s.block.tsValid = false ∨ p31 Config.params q ≠ s.block.tsBits
        then startWindow (p31 Config.params q) s.block else s.block))) := by
  simp only [exec, execUpdateTime, execUpdateTimeWith, Config.hardware_toParams, timeBits_of_quantize hq]
  split <;> rfl

/-- A refresh in the bucket of the running window commits the block as it stands (R163). -/
theorem exec_updateTime_same (hq : quantize s.block.cfgEpoch (timeSample s) = .ok q)
    (hv : s.block.tsValid = true) (hb : s.block.tsBits = p31 Config.params q) :
    exec .updateTime s = .next (commit (afterSample s) (.ok s.block)) := by
  rw [exec_updateTime_of_quantize hq, if_neg (by simp [hv, hb])]

/-- A refresh in a bucket of other bits than the stored ones starts a window (R163). -/
theorem exec_updateTime_rollover (hq : quantize s.block.cfgEpoch (timeSample s) = .ok q)
    (hb : p31 Config.params q ≠ s.block.tsBits) :
    exec .updateTime s = .next (commit (afterSample s) (.ok (startWindow (p31 Config.params q) s.block))) := by
  rw [exec_updateTime_of_quantize hq, if_pos (.inr hb)]

end Refresh

/-- In a running window a window start leaves `tsValid` too (R152). -/
theorem startWindow_of_tsValid {b : Block} (hv : b.tsValid = true) (t : TimeBits) :
    startWindow t b = { b with tsBits := t, table := [], wcount := 0 } := by
  rw [startWindow, ← hv]

/-! ### The obligations -/

/-- Settles O18, by induction on the table: the sum's bits are the entries' bits in order. -/
theorem permuteTakesTableBits : Obligations.PermuteTakesTableBits := by
  unfold Obligations.PermuteTakesTableBits
  exact fun n v T hT i hi => permute_getLsbD v hT hi

/-- Settles O19: positions from the top mirror those from the bottom on both sides of the table. -/
theorem msbFirstTableConverts : Obligations.MsbFirstTableConverts := by
  unfold Obligations.MsbFirstTableConverts
  exact fun n v T hT hlt i hi => permute_tableFromMsbFirst_getMsbD v hT hlt hi

/-- Settles O20: the output's bits are the input's, rearranged. -/
theorem permutePreservesPopcount : Obligations.PermutePreservesPopcount := by
  unfold Obligations.PermutePreservesPopcount
  exact fun n T hT => ⟨permute_zero (length_of_isBijection hT), permute_allOnes hT, countP_permute hT⟩

/-- Settles O21: a bijective table names every bit, and this hardware's tables are bijective. -/
theorem permutationsAreInjective : Obligations.PermutationsAreInjective := by
  unfold Obligations.PermutationsAreInjective
  exact ⟨fun n T hT a b => (permute_inj hT).mp, fun a b => p31_params_inj, fun a b => p8_params_inj⟩

/-- Settles O53: the window-change test compares permuted buckets, and `P31` is injective. -/
theorem rolloverExactlyOnBucketChange : Obligations.RolloverExactlyOnBucketChange := by
  unfold Obligations.RolloverExactlyOnBucketChange
  intro s t q q' hv hb hq he
  constructor
  · rintro rfl
    rw [exec_updateTime_same hq hv hb] at he
    obtain rfl := Host.Outcome.next.inj he
    rfl
  · intro hne
    have hbits : p31 Config.params q' ≠ s.block.tsBits := by
      rw [hb]
      exact mt p31_params_inj.mp hne
    rw [exec_updateTime_rollover hq hbits, startWindow_of_tsValid hv] at he
    obtain rfl := Host.Outcome.next.inj he
    exact ⟨rfl, hbits⟩

end Sys2Proof.Machine
end

section
/-! The time quantizer (43_time_quantizer.md R140, R144): when it accepts a time and the bucket it then
answers, and what the order of two accepted times says about their buckets. -/

namespace Sys2Proof.Machine

section Quantizer

variable {epoch now : DWord} {q : BitVec 31}

/-- A time before the epoch is refused (R140). -/
theorem quantize_of_neg (h : now.toInt - epoch.toInt < 0) : quantize epoch now = .error .epochInFuture :=
  if_pos h

/-- A time past the threshold is refused (R140). -/
theorem quantize_of_gt (h : 0x3FFFFFFF8 < now.toInt - epoch.toInt) :
    quantize epoch now = .error .timestampOverflow := by
  rw [quantize, if_neg (by omega), if_pos h]

/-- An accepted difference shifted right by three fits the 31 bits of a bucket (R140, R141). -/
theorem toNat_ofNat_elapsed {d : Int} (h0 : 0 ≤ d) (h1 : d ≤ 0x3FFFFFFF8) :
    ((BitVec.ofNat 31 (d.toNat >>> 3)).toNat : Int) = d / 8 := by
  rw [BitVec.toNat_ofNat, Nat.shiftRight_eq_div_pow]
  omega

/-- Exactly the differences from 0 to the threshold are accepted, and the bucket is the difference
divided by 8, rounded down (R140). -/
theorem quantize_eq_ok_iff :
    quantize epoch now = .ok q ↔
      0 ≤ now.toInt - epoch.toInt ∧ now.toInt - epoch.toInt ≤ 0x3FFFFFFF8 ∧
        (q.toNat : Int) = (now.toInt - epoch.toInt) / 8 := by
  by_cases h0 : now.toInt - epoch.toInt < 0
  · exact iff_of_false (by simp [quantize_of_neg h0]) (by omega)
  by_cases h1 : 0x3FFFFFFF8 < now.toInt - epoch.toInt
  · exact iff_of_false (by simp [quantize_of_gt h1]) (by omega)
  have hq := toNat_ofNat_elapsed (Int.not_lt.mp h0) (Int.not_lt.mp h1)
  rw [quantize, if_neg h0, if_neg h1, Except.ok.injEq, ← BitVec.toNat_inj]
  omega

end Quantizer

/-! ### The obligations -/

/-- Settles O23, range by range; the threshold's bucket is 0x3FFFFFFF8 / 8. -/
theorem quantizeIsExact : Obligations.QuantizeIsExact := by
  unfold Obligations.QuantizeIsExact
  intro epoch now
  refine ⟨quantize_of_neg, quantize_of_gt, fun h0 h1 => ?_, fun h => ?_⟩
  · have hq := toNat_ofNat_elapsed h0 h1
    exact ⟨_, quantize_eq_ok_iff.mpr ⟨h0, h1, hq⟩, hq⟩
  · rw [quantize_eq_ok_iff, h]
    decide

/-- Settles O24: the bucket is the floor of an eighth of the elapsed time, which is monotonic, equal to
`k` on all of bucket `k`, and at least one more when 8 seconds are added. -/
theorem quantizeBucketsTime : Obligations.QuantizeBucketsTime := by
  unfold Obligations.QuantizeBucketsTime
  intro epoch now now' q q' h h'
  obtain ⟨-, -, hq⟩ := quantize_eq_ok_iff.mp h
  obtain ⟨-, -, hq'⟩ := quantize_eq_ok_iff.mp h'
  refine ⟨fun hle => ?_, fun k hlo hhi hlo' hhi' => ?_, ?_⟩
  · omega
  · exact BitVec.eq_of_toNat_eq (by omega)
  · rintro hfar rfl
    omega

end Sys2Proof.Machine
end

section
/-! The commands that read the time port, NEW, CUSTOM and UPDATE_TIME (44_engine_commands.md R160, R161,
R163), for every value on it, and SET_INSTANCE_ID (R162). -/

namespace Sys2Proof.Machine

/-! ### A time in each of the quantizer's ranges (R140, R151) -/

section TimeBits

variable {P : Params} {ep now : DWord}

/-- The bucket of an accepted time is an eighth of the elapsed seconds, rounded down (R140). -/
theorem quantize_of_mem_range (h0 : 0 ≤ now.toInt - ep.toInt) (h1 : now.toInt - ep.toInt ≤ 0x3FFFFFFF8) :
    quantize ep now = .ok (BitVec.ofNat 31 ((now.toInt - ep.toInt) / 8).toNat) := by
  refine quantize_eq_ok_iff.mpr ⟨h0, h1, ?_⟩
  rw [BitVec.toNat_ofNat]
  omega

/-- A time is accepted exactly if the quantizer accepts it, and its bits are the permuted bucket (R151). -/
theorem timeBits_eq_ok_iff {t : TimeBits} :
    timeBits P ep now = .ok t ↔ ∃ q, quantize ep now = .ok q ∧ p31 P q = t := by
  cases hq : quantize ep now <;> simp [timeBits, hq]

end TimeBits

/-- Code 0 is OK and no other (R200). -/
theorem errBits_eq_zero_iff {e : ErrCode} : errBits e = 0 ↔ e = .ok := by
  cases e <;> decide

/-! ### Sampling the time port and committing what depends on it -/

/-- How the commands that read the time port end: one sample, its timestamp bits against the epoch `ep`,
and the block `f` makes of them, or the time's error. -/
def commitTimed (s : State) (ep : DWord) (f : TimeBits → Block) : State :=
  commit (afterSample s) ((timeBits Config.params ep (timeSample s)).map f)

theorem exec_new_eq (s : State) : exec .new s = .next (commitTimed s 1719792000 fun t =>
    startWindow t (configure 0 Config.defaultHashKey 42 1719792000 s.block)) := by
  simp only [exec, execNew, execNewWith, commitTimed, Config.hardware_toParams, Config.params_defaultEpoch]
  cases timeBits Config.params 1719792000 (timeSample s) <;> rfl

theorem exec_custom_eq {s : State} (hi : s.block.argInstance.toNat ≤ 16383) :
    exec .custom s = .next (commitTimed s (epochOperand s.block) fun t =>
      startWindow t (configure (instanceOperand s.block) (keyOperand s.block) (counterKeyOperand s.block)
        (epochOperand s.block) s.block)) := by
  have hn : instanceTooHigh s.block = false := by simpa [instanceTooHigh] using hi
  simp only [exec, execCustom, execCustomWith, commitTimed, Config.hardware_toParams, hn]
  cases timeBits Config.params (epochOperand s.block) (timeSample s) <;> rfl

theorem exec_updateTime_eq (s : State) : exec .updateTime s = .next (commitTimed s s.block.cfgEpoch fun t =>
    if s.block.tsValid = false ∨ t ≠ s.block.tsBits then startWindow t s.block else s.block) := by
  simp only [exec, execUpdateTime, execUpdateTimeWith, commitTimed, Config.hardware_toParams]
  cases timeBits Config.params s.block.cfgEpoch (timeSample s) with
  | error e => rfl
  | ok t =>
    simp only [Except.map]
    split <;> rfl

theorem exec_custom_of_instanceTooHigh {s : State} (hi : 16383 < s.block.argInstance.toNat) :
    exec .custom s = .next (commit s (.error .instanceIdTooHigh)) :=
  if_pos (by simpa [instanceTooHigh] using hi)

section CommitTimed

variable {s : State} {ep : DWord} {f : TimeBits → Block}

@[simp] theorem commitTimed_pending : (commitTimed s ep f).pending = s.pending := by simp [commitTimed]

@[simp] theorem commitTimed_responses : (commitTimed s ep f).responses = s.responses := by simp [commitTimed]

theorem commitTimed_block_of_accepted (h0 : 0 ≤ (timeSample s).toInt - ep.toInt)
    (h1 : (timeSample s).toInt - ep.toInt ≤ 0x3FFFFFFF8) :
    (commitTimed s ep f).block =
      setErr .ok (f (p31 Config.params (BitVec.ofNat 31 (((timeSample s).toInt - ep.toInt) / 8).toNat))) := by
  rw [commitTimed, timeBits_of_quantize (quantize_of_mem_range h0 h1)]
  rfl

theorem commitTimed_block_of_early (h : (timeSample s).toInt < ep.toInt) :
    (commitTimed s ep f).block = setErr .epochInFuture s.block := by
  rw [commitTimed, timeBits_of_error (quantize_of_neg (by omega))]
  rfl

theorem commitTimed_block_of_late (h : 0x3FFFFFFF8 < (timeSample s).toInt - ep.toInt) :
    (commitTimed s ep f).block = setErr .timestampOverflow s.block := by
  rw [commitTimed, timeBits_of_error (quantize_of_gt h)]
  rfl

/-- A timed command that ends with ERR 0 was accepted (R150, R201). -/
theorem exists_quantize_of_commitTimed_err (h : (commitTimed s ep f).block.err = 0) :
    ∃ q, quantize ep (timeSample s) = .ok q ∧
      (commitTimed s ep f).block = setErr .ok (f (p31 Config.params q)) := by
  cases ht : timeBits Config.params ep (timeSample s) with
  | ok t =>
    obtain ⟨q, hq, rfl⟩ := timeBits_eq_ok_iff.mp ht
    exact ⟨q, hq, by rw [commitTimed, ht]; rfl⟩
  | error e =>
    rw [commitTimed, ht] at h
    obtain rfl := errBits_eq_zero_iff.mp h
    rcases timeBits_error ht with h | h <;> cases h

/-- What the statements ask of a timed command: its block, and the host's list and answers as before. -/
theorem exists_next_of_eq_commitTimed {o : Host.Outcome State Fault Refusal} {b : Block}
    (ho : o = .next (commitTimed s ep f)) (hb : (commitTimed s ep f).block = b) :
    ∃ t, o = .next t ∧ t.block = b ∧ t.pending = s.pending ∧ t.responses = s.responses :=
  ⟨_, ho, hb, commitTimed_pending, commitTimed_responses⟩

end CommitTimed

/-! ### The obligations -/

/-- Settles O25: a timed command against the default epoch. -/
theorem newOpensDefaultWindow : Obligations.NewOpensDefaultWindow := by
  unfold Obligations.NewOpensDefaultWindow
  rintro s _ rfl
  exact ⟨fun h0 h1 => exists_next_of_eq_commitTimed (exec_new_eq s) (commitTimed_block_of_accepted h0 h1),
    fun h => exists_next_of_eq_commitTimed (exec_new_eq s) (commitTimed_block_of_early h),
    fun h => exists_next_of_eq_commitTimed (exec_new_eq s) (commitTimed_block_of_late h)⟩

/-- Each key byte is a lane of an argument register (R67). -/
theorem keyOperand_get (b : Block) (n : Fin 16) : (keyOperand b).get n =
    ([b.argKey0, b.argKey1, b.argKey2, b.argKey3].getD (n.val / 4) 0).extractLsb' (8 * (n.val % 4)) 8 := by
  fin_cases n <;> rfl

/-- Settles O26: the check of ARG_INSTANCE, then a timed command against the argument epoch. -/
theorem customOpensArgumentWindow : Obligations.CustomOpensArgumentWindow := by
  unfold Obligations.CustomOpensArgumentWindow
  rintro s _ _ rfl rfl
  refine ⟨fun hi => ⟨_, exec_custom_of_instanceTooHigh hi, rfl, rfl, rfl⟩,
    fun hi => ⟨fun h0 h1 => ?_, fun h => ?_, fun h => ?_⟩⟩
  · exact ⟨keyOperand s.block, keyOperand_get s.block,
      exists_next_of_eq_commitTimed (exec_custom_eq hi) (commitTimed_block_of_accepted h0 h1)⟩
  · exact exists_next_of_eq_commitTimed (exec_custom_eq hi) (commitTimed_block_of_early h)
  · exact exists_next_of_eq_commitTimed (exec_custom_eq hi) (commitTimed_block_of_late h)

/-- Settles O28: a timed command against the stored epoch, which starts a window or leaves the block. -/
theorem updateTimeRefreshesWindow : Obligations.UpdateTimeRefreshesWindow := by
  unfold Obligations.UpdateTimeRefreshesWindow
  rintro s _ _ rfl rfl
  refine ⟨fun h0 h1 => ⟨fun hw => ?_, fun hv hb => ?_⟩, fun h => ?_, fun h => ?_⟩
  · refine exists_next_of_eq_commitTimed (exec_updateTime_eq s) ?_
    rw [commitTimed_block_of_accepted h0 h1, if_pos hw]
    rfl
  · refine exists_next_of_eq_commitTimed (exec_updateTime_eq s) ?_
    rw [commitTimed_block_of_accepted h0 h1, if_neg (by simp [hv, hb])]
    rfl
  · exact exists_next_of_eq_commitTimed (exec_updateTime_eq s) (commitTimed_block_of_early h)
  · exact exists_next_of_eq_commitTimed (exec_updateTime_eq s) (commitTimed_block_of_late h)

/-- Settles O27: the check decides, and the low 14 bits of a legal id are the id. -/
theorem setInstanceIdStoresOrFails : Obligations.SetInstanceIdStoresOrFails := by
  unfold Obligations.SetInstanceIdStoresOrFails
  refine fun s => ⟨fun hi => ⟨instanceOperand s.block, ?_, ?_⟩, fun hi => ?_⟩
  · exact Nat.mod_eq_of_lt (Nat.lt_succ_of_le hi)
  · exact if_neg (by simpa [instanceTooHigh] using hi)
  · exact if_pos (by simpa [instanceTooHigh] using hi)

/-! ### Two refreshes (R169) -/

/-- A refresh that ends with ERR 0 found a bucket, and leaves the permuted bucket as the timestamp bits of
a running window (R163). -/
theorem exec_updateTime_of_err_zero {s t : State} (h : exec .updateTime s = .next t) (herr : t.block.err = 0) :
    ∃ q, quantize s.block.cfgEpoch (timeSample s) = .ok q ∧ t.block.tsValid = true ∧
      t.block.tsBits = p31 Config.params q ∧ t.block.cfgEpoch = s.block.cfgEpoch ∧
      (p31 Config.params q ≠ s.block.tsBits → t.block.table = [] ∧ t.block.wcount = 0) := by
  obtain rfl := Host.Outcome.next.inj ((exec_updateTime_eq s).symm.trans h)
  obtain ⟨q, hq, hb⟩ := exists_quantize_of_commitTimed_err herr
  refine ⟨q, hq, ?_⟩
  rw [hb]
  by_cases hw : s.block.tsValid = false ∨ p31 Config.params q ≠ s.block.tsBits
  · rw [if_pos hw]
    exact ⟨rfl, rfl, rfl, fun _ => ⟨rfl, rfl⟩⟩
  · rw [if_neg hw]
    rw [not_or, Bool.not_eq_false, not_not] at hw
    obtain ⟨hv, hbits⟩ := hw
    exact ⟨hv, hbits.symm, rfl, fun hne => absurd hbits hne⟩

/-- Settles O52: the second refresh finds the first one's bucket running, and other buckets have other
bits. -/
theorem refreshIsIdempotent : Obligations.RefreshIsIdempotent := by
  unfold Obligations.RefreshIsIdempotent
  intro s t hs herr
  obtain ⟨q, hq, hv, hbits, hep, hclear⟩ := exec_updateTime_of_err_zero hs herr
  obtain ⟨-, -, hqn⟩ := quantize_eq_ok_iff.mp hq
  constructor
  · intro r u hr hu huerr hbucket
    obtain ⟨q', hq', -⟩ := exec_updateTime_of_err_zero hu huerr
    have hsame : q' = q := by
      obtain ⟨-, -, hqn'⟩ := quantize_eq_ok_iff.mp hq'
      rw [hr, hep] at hqn'
      exact BitVec.eq_of_toNat_eq (by omega)
    subst hsame
    rw [exec_updateTime_same hq' (hr ▸ hv) (hr ▸ hbits)] at hu
    obtain rfl := Host.Outcome.next.inj hu
    rw [commit_ok_block, hr, setErr, errBits, ← herr]
  · intro q' hq' hne
    have hdiff : p31 Config.params q ≠ s.block.tsBits := by
      rw [hq', Ne, p31_params_inj]
      rintro rfl
      exact hne hqn
    obtain ⟨htable, hwc⟩ := hclear hdiff
    exact ⟨fun x => by rw [htable]; rfl, hwc⟩

end Sys2Proof.Machine
end

section
/-! Issuing an identifier (44_engine_commands.md R153 to R157) and the two commands that issue, NEXT_ID
(R164) and NEXT_ID_WITH_HASH (R165): the fields of the result, and what they depend on. -/

namespace Sys2Proof.Machine

/-! ### The sequence field (R155) -/

theorem isBijection_perm8 (P : CheckedParams) : isBijection 8 P.perm8 = true := by
  obtain ⟨-, h8, -⟩ := Params.error?_eq_none_iff.mp P.checked
  exact h8

/-- The sequence field tells two counters below 256 apart under one counter key. -/
theorem sequenceField_inj (P : CheckedParams) {b : Block} {c c' : Counter} (hc : c.toNat < 256) (hc' : c'.toNat < 256)
    (h : sequenceField P.toParams b c = sequenceField P.toParams b c') : c = c' := by
  have hlow : c.extractLsb' 0 8 = c'.extractLsb' 0 8 := by
    simpa using (permute_inj (isBijection_perm8 P)).mp h
  have hmod : c.toNat % 2 ^ 8 = c'.toNat % 2 ^ 8 := congrArg BitVec.toNat hlow
  exact BitVec.eq_of_toNat_eq (by omega)

/-- The sequence field tells two counter keys apart at one counter. -/
theorem cfgCounterKey_eq_of_sequenceField_eq (P : CheckedParams) {b b' : Block} {c : Counter}
    (h : sequenceField P.toParams b c = sequenceField P.toParams b' c) : b.cfgCounterKey = b'.cfgCounterKey := by
  simpa using (permute_inj (isBijection_perm8 P)).mp h

/-- A command that fails does not end with ERR 0 (R200, R201). -/
theorem commit_error_err_eq_zero_iff {s : State} {e : ErrCode} :
    (commit s (.error e)).block.err = 0 ↔ e = .ok := by
  rw [commit_error_block, setErr_err, errBits_eq_zero_iff]

/-! ### The issue under any parameters (R153, R157) -/

section Issue

variable {P : Params} {m : List Byte} {s t : State}

theorem issue_of_probe_found {slot : Slot} {c : Counter}
    (h : probe s.block.table P.probeLimit (slotHash P m s.block.cfgHashKey) = .found slot c) :
    issue P m s = .next (commit s (.ok (recordIssue P slot c s.block))) := by
  rw [issue, h]

theorem issue_of_probe_exhausted
    (h : probe s.block.table P.probeLimit (slotHash P m s.block.cfgHashKey) = .exhausted) :
    issue P m s = .next (commit s (.error .counterOverflow)) := by
  rw [issue, h]

/-- An issue that ends with ERR 0 found a slot (R153). -/
theorem probe_found_of_issue (h : issue P m s = .next t) (herr : t.block.err = 0) : ∃ slot c,
    probe s.block.table P.probeLimit (slotHash P m s.block.cfgHashKey) = .found slot c ∧
      t = commit s (.ok (recordIssue P slot c s.block)) := by
  cases hp : probe s.block.table P.probeLimit (slotHash P m s.block.cfgHashKey) with
  | found slot c => exact ⟨slot, c, rfl, Host.Outcome.next.inj (h.symm.trans (issue_of_probe_found hp))⟩
  | exhausted =>
    obtain rfl := Host.Outcome.next.inj ((issue_of_probe_exhausted hp).symm.trans h)
    cases commit_error_err_eq_zero_iff.mp herr
  | corrupt slot =>
    rw [issue, hp] at h
    cases h

/-- With every probed slot at 256 an issue changes ERR alone (R157). -/
theorem issue_of_allExhausted (h : AllExhausted s.block.table (slotHash P m s.block.cfgHashKey) P.probeLimit) :
    issue P m s = .next (commit s (.error .counterOverflow)) :=
  issue_of_probe_exhausted (probe_of_allExhausted h)

/-- What the packer keeps of its third operand: the low 10 bits of cfg_instance_id, or 0 (R156). -/
theorem setWidth_instanceField (b : Block) :
    (instanceField P b).setWidth 10 = if P.packInstance then b.cfgInstanceId.setWidth 10 else 0 := by
  unfold instanceField
  split <;> simp

/-- What is recorded for a legal counter is the issue's result, field by field (R153, R155, R110). -/
theorem issueResult_recordIssue {slot : Slot} (hc : (tableGet s.block.table slot).toNat < 256) :
    IssueResult P s (commit s (.ok (recordIssue P slot (tableGet s.block.table slot) s.block))) slot
      (tableGet s.block.table slot).toNat (if P.packInstance then s.block.cfgInstanceId.setWidth 10 else 0) := by
  refine ⟨(idHash_pack ..).trans (by simp), (idTimestamp_pack ..).trans (by simp),
    (idInstance_pack ..).trans (setWidth_instanceField _), idSequence_pack .., pack_topBit .., rfl, ?_,
    fun x hx => ?_, rfl⟩
  · simpa using counter_add_one_toNat hc
  · simp [hx]

/-- An issue whose probe sequence has a free slot issues in the first one (R153, R154). -/
theorem issue_of_firstFreeSlot {slot : Slot} {c : Nat}
    (h : FirstFreeSlot s.block.table (slotHash P m s.block.cfgHashKey) P.probeLimit slot c) :
    ∃ t, issue P m s = .next t ∧
      IssueResult P s t slot c (if P.packInstance then s.block.cfgInstanceId.setWidth 10 else 0) := by
  obtain ⟨hp, rfl, hc⟩ := probe_of_firstFreeSlot h
  exact ⟨_, issue_of_probe_found hp, issueResult_recordIssue hc⟩

/-- `s` with other contents of the message buffer. -/
def withMsg (msg : Memory) (s : State) : State := { s with block := { s.block with msg := msg } }

/-- Given its message, an issue neither reads nor writes the message buffer. -/
theorem issue_withMsg (h : issue P m s = .next t) (msg : Memory) :
    issue P m (withMsg msg s) = .next (withMsg msg t) := by
  cases hp : probe s.block.table P.probeLimit (slotHash P m s.block.cfgHashKey) with
  | found slot c =>
    obtain rfl := Host.Outcome.next.inj ((issue_of_probe_found hp).symm.trans h)
    exact issue_of_probe_found (s := withMsg msg s) hp
  | exhausted =>
    obtain rfl := Host.Outcome.next.inj ((issue_of_probe_exhausted hp).symm.trans h)
    exact issue_of_probe_exhausted (s := withMsg msg s) hp
  | corrupt slot =>
    rw [issue, hp] at h
    cases h

end Issue

/-! ### The two commands (R164, R165) -/

/-- The hash input of an issuing command (R164, R165). -/
def issueMessage (i : Instr) (b : Block) : List Byte :=
  if i = .nextId then be8 b.wcount else messageOperand b

/-- A window is open and the message, if it is read, fits the buffer: the issuing command `i` reaches its
issue (R164, R165). -/
def ReadyToIssue (P : Params) (i : Instr) (b : Block) : Prop :=
  b.tsValid = true ∧ (i = .nextIdWithHash → b.msgLen.toNat ≤ P.msgMax)

section Commands

variable {i : Instr} {s t : State}

theorem execWith_of_readyToIssue {P : CheckedParams} (hi : i = .nextId ∨ i = .nextIdWithHash)
    (h : ReadyToIssue P.toParams i s.block) :
    execWith P i s = issue P.toParams (issueMessage i s.block) s := by
  obtain ⟨hv, hlen⟩ := h
  have hopen : ¬ s.block.tsValid = false := by simp [hv]
  rcases hi with rfl | rfl
  · exact if_neg hopen
  · exact (if_neg hopen).trans (if_neg (Nat.not_lt.mpr (hlen rfl)))

theorem exec_of_readyToIssue (hi : i = .nextId ∨ i = .nextIdWithHash) (h : ReadyToIssue Config.params i s.block) :
    exec i s = issue Config.params (issueMessage i s.block) s := by
  rw [← execWith_hardware]
  exact execWith_of_readyToIssue hi h

theorem exec_of_fresh (hi : i = .nextId ∨ i = .nextIdWithHash) (hv : s.block.tsValid = false) :
    exec i s = .next (commit s (.error .notReady)) := by
  rcases hi with rfl | rfl <;> exact if_pos hv

theorem exec_nextIdWithHash_of_long (hv : s.block.tsValid = true) (hlen : 256 < s.block.msgLen.toNat) :
    exec .nextIdWithHash s = .next (commit s (.error .messageTooLong)) :=
  (if_neg (by simp [hv])).trans (if_pos hlen)

/-- An issuing command is ready, or meets one of the conditions it fails on before its issue (R164, R165). -/
theorem readyToIssue_or_fails (hi : i = .nextId ∨ i = .nextIdWithHash) (s : State) :
    ReadyToIssue Config.params i s.block ∨ s.block.tsValid = false ∨
      (i = .nextIdWithHash ∧ s.block.tsValid = true ∧ 256 < s.block.msgLen.toNat) := by
  cases hv : s.block.tsValid with
  | false => exact .inr (.inl rfl)
  | true =>
    rcases hi with rfl | rfl
    · exact .inl ⟨hv, nofun⟩
    · rcases Nat.lt_or_ge 256 s.block.msgLen.toNat with hlen | hlen
      · exact .inr (.inr ⟨rfl, rfl, hlen⟩)
      · exact .inl ⟨hv, fun _ => hlen⟩

/-- An issuing command that ends with ERR 0 was ready, and its probe found the slot it recorded. -/
theorem exec_issuing_of_err_zero (hi : i = .nextId ∨ i = .nextIdWithHash) (h : exec i s = .next t)
    (herr : t.block.err = 0) : ReadyToIssue Config.params i s.block ∧ ∃ slot c,
      probe s.block.table 10 (slotHash Config.params (issueMessage i s.block) s.block.cfgHashKey) = .found slot c ∧
      t = commit s (.ok (recordIssue Config.params slot c s.block)) := by
  rcases readyToIssue_or_fails hi s with hr | hv | ⟨rfl, hv, hlen⟩
  · rw [exec_of_readyToIssue hi hr] at h
    exact ⟨hr, probe_found_of_issue h herr⟩
  · rw [exec_of_fresh hi hv] at h
    obtain rfl := Host.Outcome.next.inj h
    cases commit_error_err_eq_zero_iff.mp herr
  · rw [exec_nextIdWithHash_of_long hv hlen] at h
    obtain rfl := Host.Outcome.next.inj h
    cases commit_error_err_eq_zero_iff.mp herr

/-- What an issuing command that is ready answers, in the terms of the statements. -/
theorem exec_issuing_result (hi : i = .nextId ∨ i = .nextIdWithHash) (hr : ReadyToIssue Config.params i s.block)
    (slot : Slot) (c : Nat) :
    (FirstFreeSlot s.block.table (slotHash Config.params (issueMessage i s.block) s.block.cfgHashKey) 10 slot c →
      ∃ t, exec i s = .next t ∧ IssueResult Config.params s t slot c 0) ∧
    (AllExhausted s.block.table (slotHash Config.params (issueMessage i s.block) s.block.cfgHashKey) 10 →
      exec i s = .next { s with block := { s.block with err := 3 } }) := by
  rw [exec_of_readyToIssue hi hr]
  exact ⟨issue_of_firstFreeSlot, issue_of_allExhausted⟩

end Commands

/-! ### The obligations -/

/-- Settles O29: the probe loop's result, recorded. -/
theorem issueTakesFirstFreeSlot : Obligations.IssueTakesFirstFreeSlot := by
  unfold Obligations.IssueTakesFirstFreeSlot
  rintro P m s _ slot c rfl
  exact ⟨issue_of_firstFreeSlot, issue_of_allExhausted⟩

/-- Settles O30: the issue on the window counter's bytes. -/
theorem nextIdIssuesIdentifier : Obligations.NextIdIssuesIdentifier := by
  unfold Obligations.NextIdIssuesIdentifier
  refine fun s s0 slot c => ⟨exec_of_fresh (.inl rfl), fun hv hs0 => ?_⟩
  rw [← be8_eq] at hs0
  subst hs0
  exact exec_issuing_result (.inl rfl) ⟨hv, nofun⟩ slot c

/-- Settles O31: the issue on the message operand, which is the message given. -/
theorem nextIdWithHashIssuesIdentifier : Obligations.NextIdWithHashIssuesIdentifier := by
  unfold Obligations.NextIdWithHashIssuesIdentifier
  refine fun s m s0 slot c =>
    ⟨exec_of_fresh (.inr rfl), exec_nextIdWithHash_of_long, fun hv hlen hm hbytes hs0 => ?_⟩
  rw [← messageOperand_eq hm.symm fun a ha => (hbytes a ha).symm] at hs0
  subst hs0
  exact exec_issuing_result (.inr rfl) ⟨hv, fun _ => hlen⟩ slot c

/-- Settles O44: the two buffers give the same message operand, and nothing else reads the buffer. -/
theorem bytesPastMsgLenDoNotMatter : Obligations.BytesPastMsgLenDoNotMatter := by
  unfold Obligations.BytesPastMsgLenDoNotMatter
  intro s t msg hmsg h
  have hop : messageOperand (withMsg msg s).block = messageOperand s.block :=
    List.map_congr_left fun n hn => hmsg n (List.mem_range.mp hn)
  rcases readyToIssue_or_fails (.inr rfl) s with hr | hv | ⟨-, hv, hlen⟩
  · rw [exec_of_readyToIssue (.inr rfl) hr] at h
    calc exec .nextIdWithHash (withMsg msg s)
        = issue Config.params (messageOperand (withMsg msg s).block) (withMsg msg s) :=
          exec_of_readyToIssue (.inr rfl) hr
      _ = issue Config.params (messageOperand s.block) (withMsg msg s) := by rw [hop]
      _ = .next (withMsg msg t) := issue_withMsg h msg
  · rw [exec_of_fresh (.inr rfl) hv] at h
    obtain rfl := Host.Outcome.next.inj h
    exact exec_of_fresh (s := withMsg msg s) (.inr rfl) hv
  · rw [exec_nextIdWithHash_of_long hv hlen] at h
    obtain rfl := Host.Outcome.next.inj h
    exact exec_nextIdWithHash_of_long (s := withMsg msg s) hv hlen

/-- Settles O49: `P8` and XOR with the key lose nothing, and neither do the low 8 bits below 256. -/
theorem sequenceValuesAreDistinct : Obligations.SequenceValuesAreDistinct := by
  unfold Obligations.SequenceValuesAreDistinct
  exact fun P b c c' => sequenceField_inj P

/-- Settles O54: the timestamp field holds the bits, and `P31` is injective. -/
theorem identifiersDifferAcrossBuckets : Obligations.IdentifiersDifferAcrossBuckets := by
  unfold Obligations.IdentifiersDifferAcrossBuckets
  intro s t s' t' i i' q q' hi hi' hq hq' hne h h' herr herr' hid
  obtain ⟨-, slot, c, -, rfl⟩ := exec_issuing_of_err_zero hi h herr
  obtain ⟨-, slot', c', -, rfl⟩ := exec_issuing_of_err_zero hi' h' herr'
  have hbits : s.block.tsBits = s'.block.tsBits := by simpa using congrArg idTimestamp hid
  rw [hq, hq', p31_params_inj] at hbits
  exact hne hbits

/-- `s` with another counter key. -/
def withCounterKey (key : Byte) (s : State) : State :=
  { s with block := { s.block with cfgCounterKey := key } }

/-- Settles O55: the probe does not read the counter key, which reaches the sequence field alone. -/
theorem counterKeyChangesSequenceOnly : Obligations.CounterKeyChangesSequenceOnly := by
  unfold Obligations.CounterKeyChangesSequenceOnly
  intro s t i key hi hkey h herr
  obtain ⟨hr, slot, c, hp, rfl⟩ := exec_issuing_of_err_zero hi h herr
  refine ⟨_, (exec_of_readyToIssue (s := withCounterKey key s) hi hr).trans
    (issue_of_probe_found hp), rfl, fun hseq => ?_, ?_⟩
  · rw [commit_ok_block, commit_ok_block, setErr_idReg, setErr_idReg, recordIssue_idReg, recordIssue_idReg,
      idSequence_pack, idSequence_pack] at hseq
    exact hkey (cfgCounterKey_eq_of_sequenceField_eq Config.hardware hseq)
  · simp [instanceField, withCounterKey]

end Sys2Proof.Machine
end

section
/-! The identifiers of one window (44_engine_commands.md R167): what the steps that start no window keep. -/

namespace Sys2Proof.Machine

/-- `b'` has the counter key of `b`, and no slot of it counts less. -/
structure CountsKept (b b' : Block) : Prop where
  counterKey : b'.cfgCounterKey = b.cfgCounterKey
  counter_le : ∀ x, (tableGet b.table x).toNat ≤ (tableGet b'.table x).toNat

theorem CountsKept.refl (b : Block) : CountsKept b b := ⟨rfl, fun _ => le_rfl⟩

theorem CountsKept.trans {a b c : Block} (h : CountsKept a b) (h' : CountsKept b c) : CountsKept a c :=
  ⟨h'.counterKey.trans h.counterKey, fun x => (h.counter_le x).trans (h'.counter_le x)⟩

/-- An issue raises its slot and leaves the others (R153). -/
theorem countsKept_recordIssue {b : Block} {slot : Slot} (hc : (tableGet b.table slot).toNat < 256) (P : Params) :
    CountsKept b (setErr .ok (recordIssue P slot (tableGet b.table slot) b)) where
  counterKey := rfl
  counter_le x := by
    rw [setErr_table, recordIssue_table, tableGet_tableSet]
    split
    next hx =>
      rw [hx, counter_add_one_toNat hc]
      exact Nat.le_succ _
    next => exact le_rfl

/-- A command keeps the counts, or it started a window (R152). -/
theorem CommandEffect.countsKept_or_window {i : Instr} {s t : State} (h : CommandEffect i s t) :
    CountsKept s.block t.block ∨ (t.block.err = 0 ∧ (i = .new ∨ i = .custom ∨
      (i = .updateTime ∧ (s.block.tsValid = false ∨ t.block.tsBits ≠ s.block.tsBits)))) := by
  cases h with
  | failed he hs =>
    rw [commit_error_block_of_sampled hs]
    exact .inl ⟨rfl, fun _ => le_rfl⟩
  | newWindow => exact .inr ⟨rfl, .inl rfl⟩
  | customWindow => exact .inr ⟨rfl, .inr (.inl rfl)⟩
  | instanceSet => exact .inl ⟨rfl, fun _ => le_rfl⟩
  | rolledOver ht hw => exact .inr ⟨rfl, .inr (.inr ⟨rfl, hw⟩)⟩
  | sameBucket => exact .inl ⟨rfl, fun _ => le_rfl⟩
  | issued hi hv hc => exact .inl (countsKept_recordIssue hc _)

/-- A step that starts no window keeps the counts. -/
theorem countsKept_of_step {s t : State} (h : step s = .next t) (hw : ¬ startsWindow s t) :
    CountsKept s.block t.block := by
  rcases step_engine_cases h with ⟨hk, hcfg⟩ | ⟨rest, hp, -⟩ | ⟨i, rest, hp, he⟩
  · exact ⟨hcfg.counterKey, fun x => by rw [hk.table]⟩
  · exact absurd (.inl (by rw [hp]; rfl)) hw
  · refine he.countsKept_or_window.resolve_right fun ⟨herr, hi⟩ => hw (.inr ?_)
    have hhead : s.pending.head? = some (asmCommand i) := by rw [hp]; rfl
    rcases hi with rfl | rfl | ⟨rfl, hbits⟩
    · exact .inl ⟨.inl hhead, herr⟩
    · exact .inl ⟨.inr hhead, herr⟩
    · exact .inr ⟨hhead, herr, hbits⟩

theorem SameWindow.countsKept {s t : State} (h : SameWindow s t) : CountsKept s.block t.block := by
  induction h with
  | refl => exact .refl _
  | step _ hstep hwin ih => exact ih.trans (countsKept_of_step hstep hwin)

/-- What the probe loop finds is the slot's counter, and it is below 256 (R153). -/
theorem counter_of_probe_found {t : CollisionTable} {n : Nat} {s slot : Slot} {c : Counter}
    (h : probe t n s = .found slot c) : c = tableGet t slot ∧ c.toNat < 256 := by
  rcases probe_cases t n s with ⟨j, -, -, hc, he⟩ | ⟨-, he⟩ | ⟨j, -, -, -, he⟩
  · cases he.symm.trans h
    exact ⟨rfl, hc⟩
  · cases he.symm.trans h
  · cases he.symm.trans h

/-- The block after a successful issue: what was recorded, for the slot found and its counter. -/
theorem Issued.exists_recordIssue {s t : State} (h : Issued s t) : ∃ slot,
    (tableGet s.block.table slot).toNat < 256 ∧
      t.block = setErr .ok (recordIssue Config.params slot (tableGet s.block.table slot) s.block) := by
  obtain ⟨i, rest, hi, hp, hst, herr⟩ := h
  have hexec : exec i { s with pending := rest } = .next t :=
    (step_write_cmd_of_decode hp (decode_encode i)).symm.trans hst
  obtain ⟨-, slot, c, hprobe, rfl⟩ := exec_issuing_of_err_zero hi hexec herr
  obtain ⟨rfl, hc⟩ := counter_of_probe_found hprobe
  exact ⟨slot, hc, rfl⟩

/-- Settles O50: a slot used again has a higher counter, and so another sequence value. -/
theorem identifiersDistinctWithinWindow : Obligations.IdentifiersDistinctWithinWindow := by
  unfold Obligations.IdentifiersDistinctWithinWindow
  intro s t u v hst htu huv hid
  obtain ⟨slot, hc, ht⟩ := hst.exists_recordIssue
  obtain ⟨slot', hc', hv⟩ := huv.exists_recordIssue
  obtain ⟨hkey, hle⟩ := htu.countsKept
  rw [ht, hv, setErr_idReg, setErr_idReg, recordIssue_idReg, recordIssue_idReg, pack_eq_pack_iff] at hid
  obtain ⟨hslot, -, -, hseq⟩ := hid
  obtain rfl : slot = slot' := by simpa using hslot
  have hup := hle slot
  rw [ht, setErr_table, recordIssue_table, tableGet_tableSet, if_pos rfl, counter_add_one_toNat hc] at hup
  have hseq' : sequenceField Config.params s.block (tableGet s.block.table slot) =
      sequenceField Config.params s.block (tableGet u.block.table slot) := by
    rw [hseq, sequenceField, sequenceField, hkey, ht]
    rfl
  have := sequenceField_inj Config.hardware hc hc' hseq'
  rw [← this] at hup
  omega

end Sys2Proof.Machine
end

section
/-! The identifier of a window restarted in its bucket (44_engine_commands.md R170,
70_reset_and_hazards.md R235). -/

namespace Sys2Proof.Machine

/-- In a window that has issued nothing NEXT_ID takes the slot of the counter 0, at its first use (R164). -/
theorem exec_nextId_of_unused {t : State} (hv : t.block.tsValid = true) (htab : t.block.table = [])
    (hwc : t.block.wcount = 0) :
    exec .nextId t = .next (commit t (.ok (recordIssue Config.params
      (slotHash Config.params (be8 0) t.block.cfgHashKey) 0 t.block))) := by
  rw [exec_of_readyToIssue (.inl rfl) ⟨hv, nofun⟩]
  refine issue_of_probe_found ?_
  rw [htab, issueMessage, if_pos rfl, hwc]
  rfl

/-- NEW, and NEXT_ID after it: the identifier of the bucket. -/
theorem exec_new_nextId {s t u : State} (hnew : exec .new s = .next t) (herr : t.block.err = 0)
    (hnext : exec .nextId t = .next u) : ∃ q,
    quantize 1719792000 (timeSample s) = .ok q ∧ u.block.err = 0 ∧
      u.block.idReg = pack ((slotHash Config.params (be8 0) Config.defaultHashKey).setWidth 16)
        ((p31 Config.params q).setWidth 32) 0 (p8 Config.params 42) := by
  obtain rfl := Host.Outcome.next.inj ((exec_new_eq s).symm.trans hnew)
  obtain ⟨q, hq, hb⟩ := exists_quantize_of_commitTimed_err herr
  rw [exec_nextId_of_unused (by rw [hb]; rfl) (by rw [hb]; rfl) (by rw [hb]; rfl)] at hnext
  obtain rfl := Host.Outcome.next.inj hnext
  refine ⟨q, hq, rfl, ?_⟩
  rw [commit_ok_block, setErr_idReg, recordIssue_idReg, hb]
  simp [instanceField, sequenceField]

/-- Settles O57: both pairs leave the identifier of the bucket. -/
theorem revisitedBucketRepeatsIdentifier : Obligations.RevisitedBucketRepeatsIdentifier := by
  unfold Obligations.RevisitedBucketRepeatsIdentifier
  intro s t u v w hs ht r _ hr hterr hverr hbucket hw
  obtain ⟨q, hq, huerr, huid⟩ := exec_new_nextId hs hterr ht
  obtain ⟨q', hq', hwerr, hwid⟩ := exec_new_nextId hr hverr hw
  obtain ⟨-, -, hqn⟩ := quantize_eq_ok_iff.mp hq
  obtain ⟨-, -, hqn'⟩ := quantize_eq_ok_iff.mp hq'
  obtain rfl : q' = q := BitVec.eq_of_toNat_eq (by
    have hepoch : (1719792000 : DWord).toInt = 1719792000 := rfl
    omega)
  exact ⟨huerr, hwerr, hwid.trans huid.symm⟩

end Sys2Proof.Machine
end

section
/-! One message issued until its slots are full (44_engine_commands.md R168). -/

namespace Sys2Proof.Machine

/-- The counter of the `p`-th slot of a probe sequence after `n` issues of one message, filled one slot
after the other. -/
def fillLevel (n p : Nat) : Nat := min 256 (n - 256 * p)

/-- `t` is `s` after `n` calls on one message with the probe sequence from `s0`: the slots hold their fill
levels, and only the window, the result register and ERR may differ. -/
structure FilledBy (P : Params) (s : State) (s0 : Slot) (n : Nat) (t : State) : Prop where
  level : ∀ p < P.probeLimit, (tableGet t.block.table (BitVec.ofNat 14 (s0.toNat + p))).toNat = fillLevel n p
  frame : t = { s with block := { s.block with
    err := t.block.err, table := t.block.table, wcount := t.block.wcount, idReg := t.block.idReg } }

/-- Two of the first 16384 slots of a probe sequence are distinct (R154). -/
theorem ofNat_add_inj {s0 : Slot} {p j : Nat} (hp : p < 16384) (hj : j < 16384)
    (h : BitVec.ofNat 14 (s0.toNat + p) = BitVec.ofNat 14 (s0.toNat + j)) : p = j := by
  have := congrArg BitVec.toNat h
  simp only [BitVec.toNat_ofNat] at this
  omega

section Saturation

variable {P : CheckedParams} {s t : State} {s0 : Slot} {n : Nat}

theorem FilledBy.firstFreeSlot (h : FilledBy P.toParams s s0 n t) (hn : n < 256 * P.probeLimit) :
    FirstFreeSlot t.block.table s0 P.probeLimit (BitVec.ofNat 14 (s0.toNat + n / 256)) (n % 256) := by
  refine ⟨n / 256, by omega, rfl, ?_, by omega, fun p hp => BitVec.eq_of_toNat_eq ?_⟩
  · rw [h.level _ (by omega), fillLevel]
    omega
  · rw [h.level _ (by omega), fillLevel]
    show min 256 (n - 256 * p) = 256
    omega

theorem FilledBy.allExhausted (h : FilledBy P.toParams s s0 n t) (hn : 256 * P.probeLimit ≤ n) :
    AllExhausted t.block.table s0 P.probeLimit := by
  refine fun p hp => BitVec.eq_of_toNat_eq ?_
  rw [h.level p hp, fillLevel]
  show min 256 (n - 256 * p) = 256
  omega

/-- An issue in the slot that is filling is one more call. -/
theorem FilledBy.of_issueResult (h : FilledBy P.toParams s s0 n t) (hL : P.probeLimit ≤ 16384)
    (hn : n < 256 * P.probeLimit) {u : State} {inst : BitVec 10}
    (hu : IssueResult P.toParams t u (BitVec.ofNat 14 (s0.toNat + n / 256)) (n % 256) inst) :
    FilledBy P.toParams s s0 (n + 1) u := by
  obtain ⟨-, -, -, -, -, -, hslot, hother, hframe⟩ := hu
  refine ⟨fun p hp => ?_, ?_⟩
  · by_cases hpn : p = n / 256
    · rw [hpn, hslot, fillLevel]
      omega
    · rw [hother _ fun he => hpn (ofNat_add_inj (by omega) (by omega) he), h.level p hp, fillLevel, fillLevel]
      omega
  · rw [hframe, h.frame]

/-- A failing call leaves full slots full. -/
theorem FilledBy.of_exhausted (h : FilledBy P.toParams s s0 n t) (hn : 256 * P.probeLimit ≤ n) :
    FilledBy P.toParams s s0 (n + 1) { t with block := { t.block with err := 3 } } := by
  refine ⟨fun p hp => (h.level p hp).trans ?_, ?_⟩
  · rw [fillLevel, fillLevel]
    omega
  · rw [h.frame]

section Calls

variable (hv : s.block.tsValid = true) (hlen : s.block.msgLen.toNat ≤ P.msgMax)
  (hs0 : s0 = (P.kh64 (messageOperand s.block) s.block.cfgHashKey).extractLsb' 0 14)
include hv hlen hs0

/-- Every call probes from the same slot: the message and the key stay. -/
theorem FilledBy.exec_eq (h : FilledBy P.toParams s s0 n t) :
    execWith P .nextIdWithHash t = issue P.toParams (messageOperand t.block) t ∧
      slotHash P.toParams (messageOperand t.block) t.block.cfgHashKey = s0 := by
  have hmsg : messageOperand t.block = messageOperand s.block := by rw [h.frame]; rfl
  have hkey : t.block.cfgHashKey = s.block.cfgHashKey := by rw [h.frame]
  refine ⟨execWith_of_readyToIssue (.inr rfl) ?_, by rw [hmsg, hkey, hs0]; rfl⟩
  rw [h.frame]
  exact ⟨hv, fun _ => hlen⟩

/-- The calls while a slot has room issue in it (R168). -/
theorem FilledBy.exec_issues (h : FilledBy P.toParams s s0 n t) (hn : n < 256 * P.probeLimit) : ∃ u inst,
    execWith P .nextIdWithHash t = .next u ∧
      IssueResult P.toParams t u (BitVec.ofNat 14 (s0.toNat + n / 256)) (n % 256) inst := by
  obtain ⟨hexec, hslot⟩ := h.exec_eq hv hlen hs0
  subst hslot
  obtain ⟨u, hu, hres⟩ := issue_of_firstFreeSlot (P := P.toParams) (h.firstFreeSlot hn)
  exact ⟨u, _, hexec.trans hu, hres⟩

/-- The calls once the slots are full fail (R157). -/
theorem FilledBy.exec_fails (h : FilledBy P.toParams s s0 n t) (hn : 256 * P.probeLimit ≤ n) :
    execWith P .nextIdWithHash t = .next { t with block := { t.block with err := 3 } } := by
  obtain ⟨hexec, hslot⟩ := h.exec_eq hv hlen hs0
  exact hexec.trans (issue_of_allExhausted (P := P.toParams) (hslot ▸ h.allExhausted hn))

/-- From unused slots, `n` calls in a row answer, and leave the slots at their fill levels. -/
theorem repeatExec_filledBy (hL : P.probeLimit ≤ 16384)
    (hzero : ∀ p < P.probeLimit, tableGet s.block.table (BitVec.ofNat 14 (s0.toNat + p)) = 0) (n : Nat) :
    ∃ t, repeatExec P .nextIdWithHash n s = some t ∧ FilledBy P.toParams s s0 n t := by
  induction n with
  | zero => exact ⟨s, rfl, fun p hp => by rw [hzero p hp, fillLevel]; simp, rfl⟩
  | succ n ih =>
    obtain ⟨t, hrun, hfill⟩ := ih
    have hnext : ∃ u, execWith P .nextIdWithHash t = .next u ∧ FilledBy P.toParams s s0 (n + 1) u := by
      rcases Nat.lt_or_ge n (256 * P.probeLimit) with hn | hn
      · obtain ⟨u, inst, hu, hres⟩ := hfill.exec_issues hv hlen hs0 hn
        exact ⟨u, hu, hfill.of_issueResult hL hn hres⟩
      · exact ⟨_, hfill.exec_fails hv hlen hs0 hn, hfill.of_exhausted hn⟩
    obtain ⟨u, hu, hfill'⟩ := hnext
    refine ⟨u, ?_, hfill'⟩
    rw [repeatExec_succ, hrun, Option.bind_some, repeatExec, hu]
    rfl

end Calls

end Saturation

/-- Settles O51, by induction on the calls with the fill levels of the slots. -/
theorem saturationBound : Obligations.SaturationBound := by
  unfold Obligations.SaturationBound
  intro P s s0 hL hv hlen hs0 hzero
  have hcalls := repeatExec_filledBy hv hlen hs0 hL hzero
  refine ⟨fun n hn => ?_, fun n hn => ?_⟩
  · obtain ⟨t, hrun, hfill⟩ := hcalls n
    obtain ⟨u, inst, hu, hres⟩ := hfill.exec_issues hv hlen hs0 hn
    obtain ⟨hhash, -, -, hseq, -, -, -, -, hframe⟩ := hres
    have hkey : t.block.cfgCounterKey = s.block.cfgCounterKey := by rw [hfill.frame]
    refine ⟨t, u, hrun, hu, by rw [hframe], ?_, ?_⟩
    · exact congrArg BitVec.toNat hhash
    · exact hseq.trans (by rw [hkey]; rfl)
  · obtain ⟨t, hrun, hfill⟩ := hcalls n
    exact ⟨t, hrun, hfill.exec_fails hv hlen hs0 hn⟩

end Sys2Proof.Machine
end

section
/-! How each command ends (60_exceptions.md R200, R201, R206, R212): the codes it can report, the sample of
the time port it takes, and which error it reports when several conditions hold. -/

namespace Sys2Proof.Machine

/-- `t` is what a command leaves that ran on `s` and committed a block, or failed with one of `codes`
(R150, R201). -/
def EndsWithin (codes : List ErrCode) (s t : State) : Prop :=
  ∃ r, t = commit s r ∧ ∀ e, r = .error e → e ∈ codes

section Endings

variable {codes : List ErrCode} {i : Instr} {s t : State}

theorem EndsWithin.of_ok (b : Block) : EndsWithin codes s (commit s (.ok b)) := ⟨_, rfl, nofun⟩

theorem EndsWithin.of_error {e : ErrCode} (he : e ∈ codes) : EndsWithin codes s (commit s (.error e)) :=
  ⟨_, rfl, fun _ h => Except.error.inj h ▸ he⟩

/-- The command leaves OK or the number of one of its codes in ERR. -/
theorem EndsWithin.err_mem (h : EndsWithin codes s t) : t.block.err ∈ 0 :: codes.map errBits := by
  obtain ⟨r, rfl, hcodes⟩ := h
  cases r with
  | ok b => exact List.mem_cons_self
  | error e => exact List.mem_cons_of_mem _ (List.mem_map_of_mem (hcodes e rfl))

/-- Ending a command leaves the time port. -/
theorem EndsWithin.timePort (h : EndsWithin codes s t) :
    t.timeDraws = s.timeDraws ∧ t.nextTime = s.nextTime := by
  obtain ⟨r, rfl, -⟩ := h
  cases r <;> exact ⟨rfl, rfl⟩

/-! ### The three commands that sample the time port -/

/-- After its one sample a timed command can fail on the time alone (R140, R151). -/
theorem commitTimed_endsWithin (s : State) (ep : DWord) (f : TimeBits → Block) :
    EndsWithin [.epochInFuture, .timestampOverflow] (afterSample s) (commitTimed s ep f) := by
  cases ht : timeBits Config.params ep (timeSample s) with
  | ok ts =>
    rw [commitTimed, ht]
    exact .of_ok _
  | error e =>
    rw [commitTimed, ht]
    exact .of_error (by simpa using timeBits_error ht)

/-- NEW, UPDATE_TIME and a CUSTOM with a legal instance id take one sample and can fail on the time alone. -/
theorem exec_sampling_endsWithin
    (hi : i = .new ∨ i = .updateTime ∨ (i = .custom ∧ s.block.argInstance.toNat ≤ 16383))
    (h : exec i s = .next t) : EndsWithin [.epochInFuture, .timestampOverflow] (afterSample s) t := by
  rcases hi with rfl | rfl | ⟨rfl, hinst⟩
  · obtain rfl := Host.Outcome.next.inj ((exec_new_eq s).symm.trans h)
    exact commitTimed_endsWithin ..
  · obtain rfl := Host.Outcome.next.inj ((exec_updateTime_eq s).symm.trans h)
    exact commitTimed_endsWithin ..
  · obtain rfl := Host.Outcome.next.inj ((exec_custom_eq hinst).symm.trans h)
    exact commitTimed_endsWithin ..

/-! ### The three commands that do not -/

theorem exec_setInstanceId_endsWithin (h : exec .setInstanceId s = .next t) :
    EndsWithin [.instanceIdTooHigh] s t := by
  rw [exec, execSetInstanceId] at h
  split at h <;> obtain rfl := Host.Outcome.next.inj h
  · exact .of_error List.mem_cons_self
  · exact .of_ok _

/-- An issue that answers can fail on full slots alone (R157). -/
theorem issue_endsWithin {P : Params} {m : List Byte} (hc : .counterOverflow ∈ codes)
    (h : issue P m s = .next t) : EndsWithin codes s t := by
  rcases issue_cases P m s with ⟨j, -, -, -, he⟩ | ⟨-, he⟩ | ⟨slot, -, he⟩
  · obtain rfl := Host.Outcome.next.inj (he.symm.trans h)
    exact .of_ok _
  · obtain rfl := Host.Outcome.next.inj (he.symm.trans h)
    exact .of_error hc
  · cases he.symm.trans h

/-- An issuing command can fail on the fresh state and on full slots, and NEXT_ID_WITH_HASH on its message
besides (R164, R165). -/
theorem exec_issuing_endsWithin (hi : i = .nextId ∨ i = .nextIdWithHash) (hc : .counterOverflow ∈ codes)
    (hn : .notReady ∈ codes) (hm : i = .nextIdWithHash → .messageTooLong ∈ codes)
    (h : exec i s = .next t) : EndsWithin codes s t := by
  rcases readyToIssue_or_fails hi s with hr | hv | ⟨rfl, hv, hlen⟩
  · exact issue_endsWithin hc ((exec_of_readyToIssue hi hr).symm.trans h)
  · obtain rfl := Host.Outcome.next.inj ((exec_of_fresh hi hv).symm.trans h)
    exact .of_error hn
  · obtain rfl := Host.Outcome.next.inj ((exec_nextIdWithHash_of_long hv hlen).symm.trans h)
    exact .of_error (hm rfl)

theorem exec_nextId_endsWithin (h : exec .nextId s = .next t) :
    EndsWithin [.counterOverflow, .notReady] s t :=
  exec_issuing_endsWithin (.inl rfl) (by decide) (by decide) nofun h

theorem exec_nextIdWithHash_endsWithin (h : exec .nextIdWithHash s = .next t) :
    EndsWithin [.counterOverflow, .notReady, .messageTooLong] s t :=
  exec_issuing_endsWithin (.inr rfl) (by decide) (by decide) (fun _ => by decide) h

/-- An issuing command that reaches its issue and finds every probed slot full fails on that (R157). -/
theorem exec_of_allExhausted (hi : i = .nextId ∨ i = .nextIdWithHash) (hr : ReadyToIssue Config.params i s.block)
    (h : AllExhausted s.block.table
      (slotHash Config.params (issueMessage i s.block) s.block.cfgHashKey) 10) :
    exec i s = .next (commit s (.error .counterOverflow)) :=
  (exec_of_readyToIssue hi hr).trans (issue_of_allExhausted h)

/-- An illegal word fails whatever the state (R166). -/
theorem command_of_decode_error {v : Word} {e : DecodeError} (hd : decode v = .error e) :
    command exec v s = .next (commit s (.error .illegalCommand)) := by
  rw [command, hd]
  rfl

end Endings

/-! ### The obligations -/

/-- Settles O34: a command that did not end with ERR 0 set ERR alone. -/
theorem failingCommandChangesOnlyErr : Obligations.FailingCommandChangesOnlyErr := by
  unfold Obligations.FailingCommandChangesOnlyErr
  intro i s t h herr
  have heffect := exec_effect h
  obtain ⟨e, hb⟩ := heffect.failed_or_ok.resolve_right herr
  obtain ⟨-, -, -, -, -, -, -, -, -, -, hp, hr⟩ := heffect.frame
  exact ⟨by rw [hb]; rfl, hp, hr⟩

/-- Settles O35: the codes each command ends within; a refused CUSTOM has INSTANCE_ID_TOO_HIGH besides. -/
theorem errorCodesByCommand : Obligations.ErrorCodesByCommand := by
  unfold Obligations.ErrorCodesByCommand
  refine fun s t => ⟨fun h => (exec_sampling_endsWithin (.inl rfl) h).err_mem, fun h => ?_,
    fun h => (exec_setInstanceId_endsWithin h).err_mem,
    fun h => (exec_sampling_endsWithin (.inr (.inl rfl)) h).err_mem,
    fun h => (exec_nextId_endsWithin h).err_mem,
    fun h => (exec_nextIdWithHash_endsWithin h).err_mem⟩
  rcases Nat.lt_or_ge 16383 s.block.argInstance.toNat with hinst | hinst
  · obtain rfl := Host.Outcome.next.inj ((exec_custom_of_instanceTooHigh hinst).symm.trans h)
    rw [commit_error_block, setErr_err]
    decide
  · have hmem := (exec_sampling_endsWithin (.inr (.inr ⟨rfl, hinst⟩)) h).err_mem
    exact List.mem_append_left [4] hmem

/-- Settles O41: the commands end as they do on the state after the sample, or on the state itself. -/
theorem timeSampledOnce : Obligations.TimeSampledOnce := by
  unfold Obligations.TimeSampledOnce
  refine fun i s t h => ⟨fun hi => (exec_sampling_endsWithin hi h).timePort, ?_⟩
  rintro (rfl | rfl | rfl)
  · exact (exec_setInstanceId_endsWithin h).timePort
  · exact (exec_nextId_endsWithin h).timePort
  · exact (exec_nextIdWithHash_endsWithin h).timePort

/-- Settles O33: what each command answers under each condition, the earlier ones absent. -/
theorem errorPriority : Obligations.ErrorPriority := by
  unfold Obligations.ErrorPriority
  refine fun s => ⟨fun hi => ⟨_, exec_custom_of_instanceTooHigh hi, rfl⟩,
    fun hi => ⟨fun hearly => ⟨_, exec_custom_eq hi, ?_⟩, fun hlate => ⟨_, exec_custom_eq hi, ?_⟩⟩,
    fun hv => ⟨_, exec_of_fresh (.inr rfl) hv, rfl⟩,
    fun hv hlen => ⟨_, exec_nextIdWithHash_of_long hv hlen, rfl⟩,
    fun hv hlen hfull => ⟨_, exec_of_allExhausted (.inr rfl) ⟨hv, fun _ => hlen⟩ hfull, rfl⟩,
    fun hv => ⟨_, exec_of_fresh (.inl rfl) hv, rfl⟩,
    fun hv hfull => ⟨_, exec_of_allExhausted (.inl rfl) ⟨hv, nofun⟩ hfull, rfl⟩,
    fun e v hd => ⟨_, command_of_decode_error hd, rfl⟩⟩
  · rw [commitTimed_block_of_early hearly]
    rfl
  · rw [commitTimed_block_of_late hlate]
    rfl

end Sys2Proof.Machine
end

section
/-! Reset and the fresh state (70_reset_and_hazards.md R230 to R236): the reset input, the only way out of
the fresh state, that no action stops the machine, the two ways to boot alike, and the instance id, which
reaches no identifier on this hardware. -/

namespace Sys2Proof.Machine

/-! ### The reset input (R230) -/

/-- The reset input gives the block its reset values and leaves the rest (R230). -/
theorem step_reset {s : State} {rest : List HostAction} (hp : s.pending = .reset :: rest) :
    step s = .next (resetBlock Config.params { s with pending := rest }) :=
  step_of_pending_cons hp

/-- Settles O6: the block after the reset input is the reset state's block. -/
theorem resetInputRestoresBlock : Obligations.ResetInputRestoresBlock := by
  unfold Obligations.ResetInputRestoresBlock
  exact fun s rest hp => ⟨_, step_reset hp, resetStateHoldsResetValues, rfl, rfl⟩

/-! ### The fresh state (R231) -/

/-- A step that leaves the fresh state ran one of the three commands that start a window, and the command
succeeded (R25, R231). -/
theorem exists_window_command_of_step_tsValid {s t : State} (h : step s = .next t)
    (hs : s.block.tsValid = false) (ht : t.block.tsValid = true) :
    ∃ i rest, s.pending = .write 0x000 (encode i) :: rest ∧
      (i = .new ∨ i = .custom ∨ i = .updateTime) ∧ t.block.err = 0 := by
  have hlost : ¬ WindowKept s.block t.block := fun hk => by simp [hk.tsValid, hs] at ht
  rcases step_engine_cases h with ⟨hk, -⟩ | ⟨rest, -, hb⟩ | ⟨i, rest, hp, he⟩
  · exact absurd hk hlost
  · rw [hb] at ht
    cases ht
  · rcases he.window_cases with hk | ⟨hi, ts, b, hb, -, -⟩ | ⟨-, hv, -⟩
    · exact absurd hk hlost
    · exact ⟨i, rest, hp, hi, by rw [hb]; rfl⟩
    · exact absurd (hv.symm.trans hs) nofun

/-- Settles O8: both issues are not ready, the instance id does not depend on the window, and a step out
of the fresh state started one. -/
theorem freshBlockCannotIssue : Obligations.FreshBlockCannotIssue := by
  unfold Obligations.FreshBlockCannotIssue
  refine fun s hs => ⟨exec_of_fresh (.inl rfl) hs, exec_of_fresh (.inr rfl) hs, fun hinst => ?_,
    fun t h ht => ?_⟩
  · obtain ⟨hstores, -⟩ := setInstanceIdStoresOrFails s
    obtain ⟨n, hn, he⟩ := hstores hinst
    rw [he, ← hn, BitVec.ofNat_toNat, BitVec.setWidth_eq]
  · obtain ⟨i, rest, hp, hi, herr⟩ := exists_window_command_of_step_tsValid h hs ht
    have hw : encode i = 1 ∨ encode i = 2 ∨ encode i = 4 :=
      hi.imp (congrArg encode) (Or.imp (congrArg encode) (congrArg encode))
    exact ⟨herr, encode i, rest, hp, hw⟩

/-! ### No action stops the machine (R204, R231) -/

/-- With a code in ERR that is produced every register has a value (R63, R200). -/
theorem exists_readReg_eq_ok {b : Block} (h : b.err.toNat ≤ 7) (r : Reg) : ∃ v, readReg b r = .ok v := by
  cases r with
  | status => exact ⟨statusWord b, if_neg (Nat.not_lt.mpr h)⟩
  | _ => exact ⟨_, rfl⟩

/-- With every counter at most 256 every command answers, and leaves the host's list (R34 (a), R204). -/
theorem exists_exec_eq_next {s : State} (h : ∀ x : Slot, (tableGet s.block.table x).toNat ≤ 256)
    (i : Instr) : ∃ t, exec i s = .next t ∧ t.pending = s.pending := by
  rcases exec_cases i s with ⟨t, ht, he⟩ | ⟨-, slot, hc, -⟩
  · obtain ⟨-, -, -, -, -, -, -, -, -, -, hp, -⟩ := he.frame
    exact ⟨t, ht, hp⟩
  · exact absurd (h slot) (Nat.not_le.mpr hc)

/-- So does every word written to CMD (R95). -/
theorem exists_command_eq_next {s : State} (h : ∀ x : Slot, (tableGet s.block.table x).toNat ≤ 256)
    (v : Word) : ∃ t, command exec v s = .next t ∧ t.pending = s.pending := by
  cases hd : decode v with
  | ok i =>
    rw [command, hd]
    exact exists_exec_eq_next h i
  | error e => exact ⟨_, command_of_decode_error hd, rfl⟩

/-- Settles O48: the invariant rules out the two values that stop the machine, and the port the accesses
it refuses. -/
theorem machineNeverStops : Obligations.MachineNeverStops := by
  unfold Obligations.MachineNeverStops
  intro s a rest hinv hp hwf
  cases a with
  | read off =>
    obtain ⟨v, hv⟩ := exists_readReg_eq_ok hinv.errBound (regAt 256 off)
    have ha : off.toNat % 4 = 0 := by simpa [HostAction.wf, Offset.aligned] using hwf
    exact ⟨_, (step_read_eq_next hp).mpr ⟨ha, v, hv, rfl⟩, rfl⟩
  | write off v =>
    have ha : off.toNat % 4 = 0 := by simpa [HostAction.wf, Offset.aligned] using hwf
    by_cases h0 : off = 0
    · subst h0
      rw [step_write_cmd hp]
      exact exists_command_eq_next (s := { s with pending := rest }) hinv.counterBound v
    · exact ⟨_, step_write hp ha h0, rfl⟩
  | time now => exact ⟨_, step_time hp, rfl⟩
  | reset => exact ⟨_, step_reset hp, rfl⟩

/-! ### Booting by UPDATE_TIME (R233) -/

/-- Configuring a block with its own configuration changes nothing (R24). -/
theorem configure_self (b : Block) :
    configure b.cfgInstanceId b.cfgHashKey b.cfgCounterKey b.cfgEpoch b = b := rfl

/-- Settles O59: both take the same time against the same epoch; an accepted one starts a window on the
configuration that the block already holds, but for the instance id, and a refused one sets ERR alone. -/
theorem updateTimeBootsAsNew : Obligations.UpdateTimeBootsAsNew := by
  unfold Obligations.UpdateTimeBootsAsNew
  intro s t u hv hkey hckey hepoch ht hu
  obtain rfl := Host.Outcome.next.inj ((exec_new_eq s).symm.trans ht)
  obtain rfl := Host.Outcome.next.inj ((exec_updateTime_eq s).symm.trans hu)
  have hcfg := configure_self s.block
  rw [hkey, hckey, hepoch] at hcfg
  rw [hepoch, commitTimed, commitTimed]
  cases timeBits Config.params 1719792000 (timeSample s) with
  | error e => rfl
  | ok ts =>
    calc setErr .ok
          (if s.block.tsValid = false ∨ ts ≠ s.block.tsBits then startWindow ts s.block else s.block)
        = setErr .ok (startWindow ts s.block) := by rw [if_pos (.inl hv)]
      _ = setErr .ok (startWindow ts
            (configure s.block.cfgInstanceId Config.defaultHashKey 42 1719792000 s.block)) := by rw [hcfg]

/-! ### The instance id (R156, R236) -/

/-- `s` with another instance id. -/
def withInstanceId (n : BitVec 14) (s : State) : State :=
  { s with block := { s.block with cfgInstanceId := n } }

section InstanceId

variable {m : List Byte} {i : Instr} {s t : State}

/-- Without PACK_INSTANCE an issue neither reads nor writes the instance id (R156). -/
theorem issue_withInstanceId {P : Params} (hP : P.packInstance = false) (h : issue P m s = .next t)
    (n : BitVec 14) : issue P m (withInstanceId n s) = .next (withInstanceId n t) := by
  have hrecord (slot : Slot) (c : Counter) : recordIssue P slot c (withInstanceId n s).block =
      { recordIssue P slot c s.block with cfgInstanceId := n } := by
    simp [recordIssue, withInstanceId, instanceField, sequenceField, hP]
  cases hp : probe s.block.table P.probeLimit (slotHash P m s.block.cfgHashKey) with
  | found slot c =>
    obtain rfl := Host.Outcome.next.inj ((issue_of_probe_found hp).symm.trans h)
    rw [issue_of_probe_found (s := withInstanceId n s) hp, hrecord]
    rfl
  | exhausted =>
    obtain rfl := Host.Outcome.next.inj ((issue_of_probe_exhausted hp).symm.trans h)
    exact issue_of_probe_exhausted (s := withInstanceId n s) hp
  | corrupt slot =>
    rw [issue, hp] at h
    cases h

/-- Nor do the issuing commands of this hardware, whether they reach their issue or not (R236). -/
theorem exec_issuing_withInstanceId (hi : i = .nextId ∨ i = .nextIdWithHash) (h : exec i s = .next t)
    (n : BitVec 14) : exec i (withInstanceId n s) = .next (withInstanceId n t) := by
  rcases readyToIssue_or_fails hi s with hr | hv | ⟨rfl, hv, hlen⟩
  · rw [exec_of_readyToIssue hi hr] at h
    exact (exec_of_readyToIssue (s := withInstanceId n s) hi hr).trans (issue_withInstanceId rfl h n)
  · obtain rfl := Host.Outcome.next.inj ((exec_of_fresh hi hv).symm.trans h)
    exact exec_of_fresh (s := withInstanceId n s) hi hv
  · obtain rfl := Host.Outcome.next.inj ((exec_nextIdWithHash_of_long hv hlen).symm.trans h)
    exact exec_nextIdWithHash_of_long (s := withInstanceId n s) hv hlen

/-- The instance field of an identifier issued on this hardware is 0 (R156). -/
theorem idInstance_of_exec_issuing (hi : i = .nextId ∨ i = .nextIdWithHash) (h : exec i s = .next t)
    (herr : t.block.err = 0) : idInstance t.block.idReg = 0 := by
  obtain ⟨-, slot, c, -, rfl⟩ := exec_issuing_of_err_zero hi h herr
  rw [commit_ok_block, setErr_idReg, recordIssue_idReg, idInstance_pack, setWidth_instanceField]
  rfl

end InstanceId

/-- Settles O56: no part of an issuing command reads the id, and the packer's instance operand is 0. -/
theorem instanceIdDoesNotReachIdentifier : Obligations.InstanceIdDoesNotReachIdentifier := by
  unfold Obligations.InstanceIdDoesNotReachIdentifier
  exact fun s t i n hi h => ⟨exec_issuing_withInstanceId hi h n, idInstance_of_exec_issuing hi h⟩

end Sys2Proof.Machine
end
